-- ==== Sys2Proof/Word.lean ====
section
/-! DEFINITION. The configuration of 00_scope.md R8 with the value this hardware takes for each parameter, and the word
types of the machine, whose widths are its fields (R8, R10, R11). -/

namespace Sys2Proof

/-- The parameters of 00_scope.md R8, one field each. Those the document leaves to the implementation (R9) are the fields
of `Config`. -/
structure Parameters where
  /-- XLEN: width of a general register V0 to VF in bits -/
  xlen       : Nat
  /-- NREG: number of general registers -/
  nreg       : Nat
  /-- ILEN: width of the index register I in bits -/
  ilen       : Nat
  /-- PCLEN: width of the program counter in bits -/
  pclen      : Nat
  /-- SLEN: width of a call-stack entry in bits -/
  slen       : Nat
  /-- TLEN: width of each timer in bits -/
  tlen       : Nat
  /-- INSTR_BYTES: length of every instruction in bytes -/
  instrBytes : Nat
  /-- FB_W: framebuffer columns -/
  fbW        : Nat
  /-- FB_H: framebuffer rows -/
  fbH        : Nat
  /-- NKEYS: logical keys -/
  nkeys      : Nat
  /-- FONT_BASE: first address of the font region -/
  fontBase   : Nat
  /-- FONT_BYTES: bytes in the font region -/
  fontBytes  : Nat
  /-- GLYPH_BYTES: bytes per glyph -/
  glyphBytes : Nat
  /-- PROG_BASE: address where the program image starts and the reset value of pc -/
  progBase   : Nat
deriving DecidableEq, Repr

/-- The value of each parameter for this hardware (R8). A constant and no field of the state, since R8 permits one value
of each and the widths are widths of types (log 27). -/
abbrev hw : Parameters where
  xlen := 8
  nreg := 16
  ilen := 16
  pclen := 16
  slen := 16
  tlen := 8
  instrBytes := 2
  fbW := 64
  fbH := 32
  nkeys := 16
  fontBase := 0x000
  fontBytes := 80
  glyphBytes := 5
  progBase := 0x200

/-- A memory cell, and a general register (XLEN bits). -/
abbrev Byte := BitVec hw.xlen

/-- The index register (ILEN bits), and the 16-bit words that are no register: an instruction, an address of one. -/
abbrev Word := BitVec hw.ilen

/-- The program counter (PCLEN bits). -/
abbrev PcWord := BitVec hw.pclen

/-- An entry of the call stack (SLEN bits). -/
abbrev StackWord := BitVec hw.slen

/-- A timer (TLEN bits). -/
abbrev TimerByte := BitVec hw.tlen

/-- The logical keys, one bit each (NKEYS). -/
abbrev KeySet := BitVec hw.nkeys

/-- The first address above the font region. -/
abbrev fontEnd : Nat := hw.fontBase + hw.fontBytes

/-- The index of one of the NREG general registers (R8, 10_state.md R21). -/
abbrev Reg := Fin hw.nreg

/-- Register 15, the flag register VF (10_state.md R23). -/
abbrev VF : Reg := 15

/-- `zext_16` of an immediate address nnn (30_encoding.md R96). -/
abbrev zextAddr (nnn : BitVec 12) : Word := nnn.zeroExtend hw.ilen

/-- `zext_16` of a register (43_index_memory.md R181). -/
abbrev zextByte (b : Byte) : Word := b.zeroExtend hw.ilen

end Sys2Proof
end

