-- ==== Sys2Proof/Machine/Flags.lean ====
section
/-! DEFINITION. Every value VF receives as a flag (10_state.md R23, 42_alu.md R170). -/

namespace Sys2Proof.Machine

/-- A flag as a register value: 1 or 0. -/
def flagByte (b : Bool) : Byte := if b then 1 else 0

/-- `8xy4`: 1 exactly when the integer sum exceeds 255 (R168, R170). -/
def carryFlag (a b : Byte) : Byte := flagByte (decide (255 < a.toNat + b.toNat))

/-- `8xy5`, `8xy7`: 1 exactly when the minuend is strictly greater than the subtrahend (R169, R170, R172). -/
def greaterFlag (minuend subtrahend : Byte) : Byte := flagByte (decide (subtrahend.toNat < minuend.toNat))

/-- `8xy6`: bit 0 of the old value (R171). -/
def bit0Flag (a : Byte) : Byte := flagByte (a.getLsbD 0)

/-- `8xyE`: bit 7 of the old value (R173). -/
def bit7Flag (a : Byte) : Byte := flagByte (a.getLsbD 7)

/-- `Dxyn`: 1 if some plotted pixel went from 1 to 0 (44_display.md R194). -/
def collisionFlag (hit : Bool) : Byte := flagByte hit

end Sys2Proof.Machine
end

