-- ==== Sys2Proof/Syntax.lean ====
section
/-! DEFINITION. The abstract syntax: one constructor per row of the opcode table (30_encoding.md R100). -/

namespace Sys2Proof

/-- The 34 instructions. Operands are named as in 30_encoding.md R94: `x`, `y` registers, `kk` an 8-bit immediate,
`nnn` a 12-bit address, `n` a count of sprite rows. -/
inductive Instr
  /-- `00E0` -/
  | cls
  /-- `00EE` -/
  | ret
  /-- `1nnn` -/
  | jp (nnn : BitVec 12)
  /-- `2nnn` -/
  | call (nnn : BitVec 12)
  /-- `3xkk` -/
  | seImm (x : Reg) (kk : Byte)
  /-- `4xkk` -/
  | sneImm (x : Reg) (kk : Byte)
  /-- `5xy0` -/
  | seReg (x y : Reg)
  /-- `6xkk` -/
  | ldImm (x : Reg) (kk : Byte)
  /-- `7xkk` -/
  | addImm (x : Reg) (kk : Byte)
  /-- `8xy0` -/
  | ldReg (x y : Reg)
  /-- `8xy1` -/
  | orReg (x y : Reg)
  /-- `8xy2` -/
  | andReg (x y : Reg)
  /-- `8xy3` -/
  | xorReg (x y : Reg)
  /-- `8xy4` -/
  | addReg (x y : Reg)
  /-- `8xy5` -/
  | subReg (x y : Reg)
  /-- `8xy6`; y is encoded and ignored (30_encoding.md R97) -/
  | shr (x y : Reg)
  /-- `8xy7` -/
  | subnReg (x y : Reg)
  /-- `8xyE`; y is encoded and ignored (R97) -/
  | shl (x y : Reg)
  /-- `9xy0` -/
  | sneReg (x y : Reg)
  /-- `Annn` -/
  | ldI (nnn : BitVec 12)
  /-- `Bnnn` -/
  | jpV0 (nnn : BitVec 12)
  /-- `Cxkk` -/
  | rnd (x : Reg) (kk : Byte)
  /-- `Dxyn`; n is a count, 0 to 15 in a well-formed instruction -/
  | drw (x y : Reg) (n : Nat)
  /-- `Ex9E` -/
  | skp (x : Reg)
  /-- `ExA1` -/
  | sknp (x : Reg)
  /-- `Fx07` -/
  | ldVxDt (x : Reg)
  /-- `Fx0A` -/
  | ldVxK (x : Reg)
  /-- `Fx15` -/
  | ldDtVx (x : Reg)
  /-- `Fx18` -/
  | ldStVx (x : Reg)
  /-- `Fx1E` -/
  | addI (x : Reg)
  /-- `Fx29` -/
  | ldF (x : Reg)
  /-- `Fx33` -/
  | ldB (x : Reg)
  /-- `Fx55` -/
  | stRegs (x : Reg)
  /-- `Fx65` -/
  | ldRegs (x : Reg)
deriving DecidableEq, Repr

end Sys2Proof
end

