-- ==== Sys2Proof/Decode.lean ====
section
/-! DEFINITION. The decoder, total on any bytes, and the encoder, both from the tables of 30_encoding.md. -/

namespace Sys2Proof

/-- Why bytes are no instruction: a word that matches no row of the opcode table (30_encoding.md R104), or fewer than
the two bytes every instruction has (R90). -/
inductive Reject
  | unknownOpcode (w : Word)
  | truncated
deriving DecidableEq, Repr

/-! ## Fields (30_encoding.md R94) -/

/-- w[15:12], the family (R98). -/
def topNibble (w : Word) : BitVec 4 := w.extractLsb' 12 4
/-- x = w[11:8]. -/
def fieldX (w : Word) : Reg := (w.extractLsb' 8 4).toFin
/-- y = w[7:4]. -/
def fieldY (w : Word) : Reg := (w.extractLsb' 4 4).toFin
/-- w[3:0] as bits: the function nibble of format XY. -/
def lowNibble (w : Word) : BitVec 4 := w.extractLsb' 0 4
/-- n = w[3:0] as a count. -/
def fieldN (w : Word) : Nat := (lowNibble w).toNat
/-- kk = w[7:0]. -/
def fieldKk (w : Word) : Byte := w.extractLsb' 0 8
/-- nnn = w[11:0]. -/
def fieldNnn (w : Word) : BitVec 12 := w.extractLsb' 0 12

/-! ## Decoding (30_encoding.md R98, R99, R100) -/

/-- Family 0: the whole word must equal 0x00E0 or 0x00EE (R99). -/
def decodeZero (w : Word) : Except Reject Instr :=
  if w = 0x00E0#16 then .ok .cls
  else if w = 0x00EE#16 then .ok .ret
  else .error (.unknownOpcode w)

/-- Family 8: the low nibble selects (R99). -/
def decodeAlu (w : Word) : Except Reject Instr :=
  let x := fieldX w
  let y := fieldY w
  match lowNibble w with
  | 0x0#4 => .ok (.ldReg x y)
  | 0x1#4 => .ok (.orReg x y)
  | 0x2#4 => .ok (.andReg x y)
  | 0x3#4 => .ok (.xorReg x y)
  | 0x4#4 => .ok (.addReg x y)
  | 0x5#4 => .ok (.subReg x y)
  | 0x6#4 => .ok (.shr x y)
  | 0x7#4 => .ok (.subnReg x y)
  | 0xE#4 => .ok (.shl x y)
  | _ => .error (.unknownOpcode w)

/-- Family E: the low byte selects (R99). -/
def decodeKey (w : Word) : Except Reject Instr :=
  match fieldKk w with
  | 0x9E#8 => .ok (.skp (fieldX w))
  | 0xA1#8 => .ok (.sknp (fieldX w))
  | _ => .error (.unknownOpcode w)

/-- Family F: the low byte selects (R99). -/
def decodeMisc (w : Word) : Except Reject Instr :=
  let x := fieldX w
  match fieldKk w with
  | 0x07#8 => .ok (.ldVxDt x)
  | 0x0A#8 => .ok (.ldVxK x)
  | 0x15#8 => .ok (.ldDtVx x)
  | 0x18#8 => .ok (.ldStVx x)
  | 0x1E#8 => .ok (.addI x)
  | 0x29#8 => .ok (.ldF x)
  | 0x33#8 => .ok (.ldB x)
  | 0x55#8 => .ok (.stRegs x)
  | 0x65#8 => .ok (.ldRegs x)
  | _ => .error (.unknownOpcode w)

/-- The instruction of a word, or `unknownOpcode` (R101). Literal digits of a pattern must match (R106). -/
def decodeWord (w : Word) : Except Reject Instr :=
  let x := fieldX w
  let y := fieldY w
  let kk := fieldKk w
  let nnn := fieldNnn w
  match topNibble w with
  | 0x0#4 => decodeZero w
  | 0x1#4 => .ok (.jp nnn)
  | 0x2#4 => .ok (.call nnn)
  | 0x3#4 => .ok (.seImm x kk)
  | 0x4#4 => .ok (.sneImm x kk)
  | 0x5#4 => if lowNibble w = 0x0#4 then .ok (.seReg x y) else .error (.unknownOpcode w)
  | 0x6#4 => .ok (.ldImm x kk)
  | 0x7#4 => .ok (.addImm x kk)
  | 0x8#4 => decodeAlu w
  | 0x9#4 => if lowNibble w = 0x0#4 then .ok (.sneReg x y) else .error (.unknownOpcode w)
  | 0xA#4 => .ok (.ldI nnn)
  | 0xB#4 => .ok (.jpV0 nnn)
  | 0xC#4 => .ok (.rnd x kk)
  | 0xD#4 => .ok (.drw x y (fieldN w))
  | 0xE#4 => decodeKey w
  | 0xF#4 => decodeMisc w
  | _ => .error (.unknownOpcode w)

/-- The big-endian word of two consecutive bytes (20_memory.md R61). -/
def wordOfBytes (hi lo : Byte) : Word := hi ++ lo

/-- The first instruction of a byte sequence, with the bytes after it (R90, R91). -/
def decodeBytes : List Byte → Except Reject (Instr × List Byte)
  | hi :: lo :: rest =>
    match decodeWord (wordOfBytes hi lo) with
    | .ok i => .ok (i, rest)
    | .error r => .error r
  | _ => .error .truncated

/-! ## Encoding: the formats of 30_encoding.md R93 -/

def formatA (op : BitVec 4) (nnn : BitVec 12) : Word := op ++ nnn
def formatXK (op : BitVec 4) (x : Reg) (kk : Byte) : Word := op ++ BitVec.ofFin (w := 4) x ++ kk
def formatXY (op : BitVec 4) (x y : Reg) (f : BitVec 4) : Word :=
  op ++ BitVec.ofFin (w := 4) x ++ BitVec.ofFin (w := 4) y ++ f
def formatXF (op : BitVec 4) (x : Reg) (f : Byte) : Word := formatXK op x f

/-- The word of an instruction (R100). -/
def encode : Instr → Word
  | .cls => 0x00E0#16
  | .ret => 0x00EE#16
  | .jp nnn => formatA 0x1 nnn
  | .call nnn => formatA 0x2 nnn
  | .seImm x kk => formatXK 0x3 x kk
  | .sneImm x kk => formatXK 0x4 x kk
  | .seReg x y => formatXY 0x5 x y 0x0
  | .ldImm x kk => formatXK 0x6 x kk
  | .addImm x kk => formatXK 0x7 x kk
  | .ldReg x y => formatXY 0x8 x y 0x0
  | .orReg x y => formatXY 0x8 x y 0x1
  | .andReg x y => formatXY 0x8 x y 0x2
  | .xorReg x y => formatXY 0x8 x y 0x3
  | .addReg x y => formatXY 0x8 x y 0x4
  | .subReg x y => formatXY 0x8 x y 0x5
  | .shr x y => formatXY 0x8 x y 0x6
  | .subnReg x y => formatXY 0x8 x y 0x7
  | .shl x y => formatXY 0x8 x y 0xE
  | .sneReg x y => formatXY 0x9 x y 0x0
  | .ldI nnn => formatA 0xA nnn
  | .jpV0 nnn => formatA 0xB nnn
  | .rnd x kk => formatXK 0xC x kk
  | .drw x y n => formatXY 0xD x y (BitVec.ofNat 4 n)
  | .skp x => formatXF 0xE x 0x9E
  | .sknp x => formatXF 0xE x 0xA1
  | .ldVxDt x => formatXF 0xF x 0x07
  | .ldVxK x => formatXF 0xF x 0x0A
  | .ldDtVx x => formatXF 0xF x 0x15
  | .ldStVx x => formatXF 0xF x 0x18
  | .addI x => formatXF 0xF x 0x1E
  | .ldF x => formatXF 0xF x 0x29
  | .ldB x => formatXF 0xF x 0x33
  | .stRegs x => formatXF 0xF x 0x55
  | .ldRegs x => formatXF 0xF x 0x65

/-- The high and the low byte of a word, in memory order (20_memory.md R61). -/
def bytesOfWord (w : Word) : List Byte := [w.extractLsb' 8 8, w.extractLsb' 0 8]

/-- The two bytes of an instruction, at ascending addresses. -/
def encodeBytes (i : Instr) : List Byte := bytesOfWord (encode i)

/-! ## The opcode table's own numbering of bits -/

/-- The word whose bits spec/opcode_table.json gives as the number `w` of `nbits` bits, the bits above them 0. -/
def tableWord (nbits w : Nat) : Word := BitVec.ofNat 16 (w % 2 ^ nbits)

/-- The instruction the decoder reads from that word laid out in memory. -/
def decodeTableWord (nbits w : Nat) : Option Instr :=
  match decodeBytes (bytesOfWord (tableWord nbits w)) with
  | .ok (i, _) => some i
  | .error _ => none

end Sys2Proof
end

