-- ==== Sys2Proof/Config.lean ====
section
/-! DEFINITION. The parameters left to the implementation (00_scope.md R9; those of R8 are `hw`, Word.lean) and the free inputs (10_state.md R43, R44). -/

namespace Sys2Proof

/-- The parameters the document leaves to the implementation (00_scope.md R9). The record is a field of the state that
no step changes, so that a statement about every state is a statement about every permitted value (logs 1 to 4). -/
structure Config where
  /-- MEM_SIZE: valid addresses are 0 to MEM_SIZE - 1 (R9, 92_eei_decisions.md D3). -/
  memSize    : Nat
  /-- STACK_DEPTH: `none` is "unbounded" (R9, D4). -/
  stackDepth : Option Nat
  /-- IPT: sub-steps per tick (R9, D5). -/
  ipt        : Nat
  /-- FONT: 16 glyphs of 5 bytes, glyph d at addresses 5 d to 5 d + 4 (R9, 10_state.md R41, D9). -/
  font       : Vector (Vector Byte hw.glyphBytes) 16
deriving DecidableEq, Repr

namespace Config

/-- The conventional font of 10_state.md R41. PRESUMED (log 4): the spec supplies it from general knowledge. -/
def conventionalFont : Vector (Vector Byte hw.glyphBytes) 16 :=
  #v[#v[0xF0, 0x90, 0x90, 0x90, 0xF0], #v[0x20, 0x60, 0x20, 0x20, 0x70],
     #v[0xF0, 0x10, 0xF0, 0x80, 0xF0], #v[0xF0, 0x10, 0xF0, 0x10, 0xF0],
     #v[0x90, 0x90, 0xF0, 0x10, 0x10], #v[0xF0, 0x80, 0xF0, 0x10, 0xF0],
     #v[0xF0, 0x80, 0xF0, 0x90, 0xF0], #v[0xF0, 0x10, 0x20, 0x40, 0x40],
     #v[0xF0, 0x90, 0xF0, 0x90, 0xF0], #v[0xF0, 0x90, 0xF0, 0x10, 0xF0],
     #v[0xF0, 0x90, 0xF0, 0x90, 0x90], #v[0xE0, 0x90, 0xE0, 0x90, 0xE0],
     #v[0xF0, 0x80, 0x80, 0x80, 0xF0], #v[0xE0, 0x90, 0x90, 0x90, 0xE0],
     #v[0xF0, 0x80, 0xF0, 0x80, 0xF0], #v[0xF0, 0x80, 0xF0, 0x80, 0x80]]

/-- The values this hardware takes: MEM_SIZE = 4096 (D3), unbounded stack (the document's contract, D4), IPT = 10 (D5),
the conventional font (D9). -/
def ofSpec : Config :=
  { memSize := 4096, stackDepth := none, ipt := 10, font := conventionalFont }

/-- The permitted values: 4096 <= MEM_SIZE <= 65536 and IPT positive (R9). -/
def wf (c : Config) : Bool :=
  decide (4096 ≤ c.memSize) && decide (c.memSize ≤ 65536) && decide (1 ≤ c.ipt)

/-- FREE VALUE (log 7): the KEYS input at tick number `t` where the host's tape has ended (10_state.md R43). -/
opaque freeKeys (t : Nat) : KeySet

/-- FREE VALUE (log 8): the RND input at draw number `d` where the tape has ended (10_state.md R44). -/
opaque freeRnd (d : Nat) : Byte

end Config
end Sys2Proof
end

