-- ==== Sys2Proof/Machine/State.lean ====
section
/-! DEFINITION. The state of the machine (10_state.md R20) as plain data, the model's own fields beside it, reset (R47). -/

namespace Sys2Proof.Machine

/-- MODE (10_state.md R34). -/
inductive Mode
  | running
  | blockedOnKey
  | faulted
deriving DecidableEq, Repr

/-- FCAUSE: the cause codes of 60_exceptions.md R221, in the order of their numbers 0 to 7. -/
inductive Cause
  | none
  | fetchOor
  | memReadOor
  | memWriteOor
  | fontWrite
  | stackEmpty
  | stackFull
  | keyIndex
deriving DecidableEq, Repr

/-- One record of DIAG: the address an unknown opcode was fetched from, and its word (10_state.md R37). -/
structure DiagRecord where
  addr : PcWord
  word : Word
deriving DecidableEq, Repr

/-- Whether LOAD is still in the contract (70_reset_and_hazards.md R262, R265): `fresh` after RESET, `loaded` after LOAD,
`ticking` once a sub-step has run. The model's own field (log 14). -/
inductive HostStage
  | fresh
  | loaded
  | ticking
deriving DecidableEq, Repr

/-- MEM as the listed bytes, addresses strictly rising, no byte equal to what an unlisted address reads as (log 13). -/
abbrev Memory := List Host.Cell

/-- FB: 32 rows of 64 pixels, row index first (10_state.md R42). -/
abbrev FrameBuffer := Vector (Vector Bool hw.fbW) hw.fbH

/-- The state. The first group is the whole of 10_state.md R20; the second holds the parameters, the inputs and the
position inside a tick, which are no state of the hardware (R43 to R45; logs 1 to 14). -/
structure State where
  /-- V[0..15], NREG registers (R21) -/
  V       : Vector Byte hw.nreg
  /-- the index register (R24) -/
  I       : Word
  /-- the program counter (R25) -/
  pc      : PcWord
  /-- STACK, the top first (R29) -/
  stack   : List StackWord
  /-- the delay timer (R31, R32) -/
  DT      : TimerByte
  /-- the sound timer (R31, R33) -/
  ST      : TimerByte
  /-- MODE (R34) -/
  mode    : Mode
  /-- KEYDEST (R35) -/
  keydest : Reg
  /-- FCAUSE (R36) -/
  fcause  : Cause
  /-- FPC (R36) -/
  fpc     : PcWord
  /-- FOPC (R36) -/
  fopc    : Word
  /-- DIAG, oldest record first (R37) -/
  diag    : List DiagRecord
  /-- MEM (R38) -/
  mem     : Memory
  /-- FB (R42) -/
  fb      : FrameBuffer
  /-- the parameters of 00_scope.md R9; no step changes them -/
  cfg     : Config
  /-- KEYS for this tick and the following ones, as far as the host has fixed them (R43; log 7) -/
  keyTape : List KeySet
  /-- RND for the next draws, as far as they are fixed (R44; log 8) -/
  rndTape : List Byte
  /-- index of the free KEYS value of this tick (log 7) -/
  tickNo  : Nat
  /-- index of the next free RND byte (log 8) -/
  draws   : Nat
  /-- sub-steps done in this tick; 0 between ticks (40_step_and_tick.md R127; log 9) -/
  phase   : Nat
  /-- FRAME_READY signals since RESET (R129; log 10) -/
  frames  : Nat
  /-- what the host has done since RESET (log 14) -/
  stage   : HostStage
deriving DecidableEq, Repr

/-- Reasons a step of the model could stop with a fault. There is none: a fatal condition of the hardware is the NEXT
state with MODE = Faulted and the fault record latched (60_exceptions.md R229, R230), and every sub-step is total
(40_step_and_tick.md R121). Safe: nothing can be stopped by it. -/
inductive Fault
deriving DecidableEq, Repr

/-- Reasons for a refusal. No step refuses; the host actions of Machine/Driver.lean do. -/
inductive Refusal
  /-- An instruction that has no meaning yet, raised by `exec`. Safe. No arm raises it in this model. -/
  | notModelled (mnemonic : String)
  /-- LOAD of an image longer than MEM_SIZE - 0x200, raised by `hostLoad`: the spec gives it no meaning
  (70_reset_and_hazards.md R263). Safe. -/
  | oversizeImage
  /-- LOAD after the first tick or a second LOAD, raised by `hostLoad`: no meaning (R262). Safe. -/
  | loadOutOfTurn
  /-- A host action inside a tick, raised by every host action: a breach of the host's duty (R268, R269). Safe. -/
  | insideTick
deriving DecidableEq, Repr

/-- A clear framebuffer (10_state.md R47, 44_display.md R191). -/
def FrameBuffer.clear : FrameBuffer := Vector.replicate hw.fbH (Vector.replicate hw.fbW false)

/-- The state after RESET under the parameters `cfg`: the table of 10_state.md R47. -/
def State.resetWith (cfg : Config) : State where
  V := Vector.replicate hw.nreg 0
  I := 0
  pc := BitVec.ofNat hw.pclen hw.progBase
  stack := []
  DT := 0
  ST := 0
  mode := .running
  keydest := 0
  fcause := .none
  fpc := 0
  fopc := 0
  diag := []
  mem := []
  fb := FrameBuffer.clear
  cfg := cfg
  keyTape := []
  rndTape := []
  tickNo := 0
  draws := 0
  phase := 0
  frames := 0
  stage := .fresh

/-- The machine right after reset, with the parameter values this hardware takes (R47; 00_scope.md R9). -/
def State.reset : State := State.resetWith Config.ofSpec

end Sys2Proof.Machine
end

