-- ==== Sys2Proof/Machine/Memory.lean ====
section
/-! DEFINITION. MEM: what an unlisted byte reads as, reading and writing one byte, the canonical form (10_state.md R38 to R41). -/

namespace Sys2Proof.Machine

/-- The byte an unlisted address reads as: the reset content, FONT at 0x000 to 0x04F and 0x00 above (10_state.md R39, R47).
Byte r of glyph d is at FONT_BASE + GLYPH_BYTES d + r (R41). -/
def resetByte (cfg : Config) (a : Nat) : Byte :=
  if h : hw.fontBase ≤ a ∧ a < fontEnd then
    let k := a - hw.fontBase
    (cfg.font[k / hw.glyphBytes]'(Nat.div_lt_of_lt_mul h.2))[k % hw.glyphBytes]'(Nat.mod_lt k (by decide))
  else 0

/-- The listed byte at `a`, or `unlisted`. -/
def Memory.read (unlisted : Byte) (a : Nat) : Memory → Byte
  | [] => unlisted
  | (b, v) :: m => if a = b then v else Memory.read unlisted a m

/-- The memory without a listed byte at `a`. -/
def Memory.unlist (a : Nat) (m : Memory) : Memory := m.filter (fun c => c.1 != a)

/-- `(a, v)` put before the first listed address above `a`. -/
def Memory.enlist (a : Nat) (v : Byte) : Memory → Memory
  | [] => [(a, v)]
  | (b, w) :: m => if a < b then (a, v) :: (b, w) :: m else (b, w) :: Memory.enlist a v m

/-- The memory after storing `v` at `a`, in canonical form again. -/
def Memory.write (unlisted : Byte) (a : Nat) (v : Byte) (m : Memory) : Memory :=
  if v = unlisted then m.unlist a else (m.unlist a).enlist a v

/-- Addresses strictly rising. -/
def Memory.sorted : Memory → Bool
  | [] => true
  | (a, _) :: m => m.all (fun c => decide (a < c.1)) && Memory.sorted m

/-- The canonical form: addresses strictly rising, and no listed byte equal to what its address reads as unlisted. -/
def Memory.wf (cfg : Config) (m : Memory) : Bool :=
  m.sorted && m.all (fun c => c.2 != resetByte cfg c.1)

/-- Every listed byte is a writable one: above the font region, below MEM_SIZE (10_state.md R39, R40). -/
def Memory.listsWritable (cfg : Config) (m : Memory) : Bool :=
  m.all (fun c => decide (fontEnd ≤ c.1) && decide (c.1 < cfg.memSize))

/-- `MEM[a]` (00_scope.md R13). -/
def State.byteAt (s : State) (a : Nat) : Byte := s.mem.read (resetByte s.cfg a) a

/-- `MEM[a] <- v`, with no check. -/
def State.poke (s : State) (a : Nat) (v : Byte) : State :=
  { s with mem := s.mem.write (resetByte s.cfg a) a v }

/-- `MEM[base + r] <- bytes[r]` for r ascending (20_memory.md R63), with no check. -/
def State.pokeAll (s : State) (base : Nat) : List Byte → State
  | [] => s
  | b :: bs => (s.poke base b).pokeAll (base + 1) bs

/-- The n bytes `MEM[base]`, ..., `MEM[base + n - 1]`, in that order (20_memory.md R63). -/
def State.bytesFrom (s : State) (base : Nat) : Nat → List Byte
  | 0 => []
  | n + 1 => s.byteAt base :: s.bytesFrom (base + 1) n

end Sys2Proof.Machine
end

