-- ==== Sys2Proof/Machine/Ops.lean ====
section
/-! DEFINITION. The named operations every meaning is written with: registers, pc, stack, inputs, checked memory,
taking a fatal condition, completing an instruction. -/

namespace Sys2Proof.Machine

/-! ## Registers, pc, stack -/

/-- `V[x]` (10_state.md R21). -/
def State.reg (s : State) (x : Reg) : Byte := s.V[x]

/-- `V[x] <- b`. -/
def State.setReg (s : State) (x : Reg) (b : Byte) : State := { s with V := s.V.set x b }

/-- `V[r + j] <- bytes[j]` for j ascending (43_index_memory.md R185). -/
def State.setRegsFrom (s : State) (r : Nat) : List Byte → State
  | [] => s
  | b :: bs => (s.setReg (Fin.ofNat hw.nreg r) b).setRegsFrom (r + 1) bs

/-- `V[0]`, ..., `V[x]`. -/
def State.regsUpTo (s : State) (x : Reg) : List Byte := s.V.toList.take (x.val + 1)

/-- `pc <- target`. -/
def State.setPc (s : State) (target : PcWord) : State := { s with pc := target }

/-- The address one instruction after `pc`: (pc + INSTR_BYTES) mod 65536. -/
def nextPc (pc : PcWord) : PcWord := pc + BitVec.ofNat hw.pclen hw.instrBytes

/-- `pc <- (pc + 2) mod 65536`: the advance of the fetch (40_step_and_tick.md R123) and of a taken skip (41_flow.md R149). -/
def State.advance (s : State) : State := { s with pc := nextPc s.pc }

/-- A skip: a second advance when the condition holds (R149). -/
def State.skipIf (s : State) (cond : Bool) : State := { s with pc := if cond then nextPc s.pc else s.pc }

/-- `I <- v`. -/
def State.setI (s : State) (v : Word) : State := { s with I := v }

/-- `DT <- v` (10_state.md R32). -/
def State.setDT (s : State) (v : TimerByte) : State := { s with DT := v }

/-- `ST <- v` (10_state.md R33). -/
def State.setST (s : State) (v : TimerByte) : State := { s with ST := v }

/-- `push(STACK, v)`. -/
def State.push (s : State) (v : StackWord) : State := { s with stack := v :: s.stack }

/-- The stack holds STACK_DEPTH entries; never, when it is unbounded (10_state.md R30). -/
def State.stackIsFull (s : State) : Bool :=
  match s.cfg.stackDepth with
  | none => false
  | some d => decide (d ≤ s.stack.length)

/-- `FB <- fb`. -/
def State.setFb (s : State) (fb : FrameBuffer) : State := { s with fb := fb }

/-! ## Inputs -/

/-- KEYS at this sub-step: the tape's value for this tick, or free (10_state.md R43; log 7). -/
def State.keys (s : State) : KeySet :=
  match s.keyTape with
  | k :: _ => k
  | [] => Config.freeKeys s.tickNo

/-- The byte the next draw gives: the tape's next, or free (10_state.md R44; log 8). -/
def State.rnd (s : State) : Byte :=
  match s.rndTape with
  | b :: _ => b
  | [] => Config.freeRnd s.draws

/-- A draw uses its byte up. -/
def State.consumeRnd (s : State) : State := { s with rndTape := s.rndTape.tail, draws := s.draws + 1 }

/-- `lowestPressed()`: the least i in 0 to 15 with keys[i] = 1, or none (10_state.md R43). -/
def lowestPressed (keys : KeySet) : Option Nat := (List.range hw.nkeys).find? (fun i => keys.getLsbD i)

/-! ## Fatal conditions (60_exceptions.md R221 to R231) -/

/-- A `raise` with its descriptive argument, which is not latched (R221; log 20). -/
inductive Raise
  | fetchOor (a : Nat)
  | memReadOor (a : Nat)
  | memWriteOor (a : Nat)
  | fontWrite (a : Nat)
  | stackEmpty
  | stackFull
  | keyIndex (k : Nat)
deriving DecidableEq, Repr

/-- The cause FCAUSE latches (R221). -/
def Raise.cause : Raise → Cause
  | .fetchOor _ => .fetchOor
  | .memReadOor _ => .memReadOor
  | .memWriteOor _ => .memWriteOor
  | .fontWrite _ => .fontWrite
  | .stackEmpty => .stackEmpty
  | .stackFull => .stackFull
  | .keyIndex _ => .keyIndex

/-- The number of a cause (R221). -/
def Cause.code : Cause → Nat
  | .none => 0
  | .fetchOor => 1
  | .memReadOor => 2
  | .memWriteOor => 3
  | .fontWrite => 4
  | .stackEmpty => 5
  | .stackFull => 6
  | .keyIndex => 7

/-- Taking a fatal condition, from the state `s` just before the fetch of the faulting instruction: MODE and the fault
record are written and nothing else (R229, R230). `w` is the word fetched, 0 when the fetch itself failed. There is no
return from it but RESET (R236). -/
def State.takeFatal (s : State) (r : Raise) (w : Word) : State :=
  { s with mode := .faulted, fcause := r.cause, fpc := s.pc, fopc := w }

/-! ## Checked memory (00_scope.md R13, 20_memory.md R66, R67) -/

/-- The range check of n reads at base, base + 1, ..., on natural numbers; it names the lowest offending address. The
one-byte `MemRead(a, 1)` is n = 1. -/
def State.checkRead (s : State) (base n : Nat) : Option Raise :=
  if n ≠ 0 ∧ s.cfg.memSize < base + n then some (.memReadOor (max base s.cfg.memSize)) else none

/-- The range and font check of n writes at base, base + 1, .... The one-byte `MemWrite(a, 1, v)` is n = 1. -/
def State.checkWrite (s : State) (base n : Nat) : Option Raise :=
  if n ≠ 0 ∧ s.cfg.memSize < base + n then some (.memWriteOor (max base s.cfg.memSize))
  else if n ≠ 0 ∧ base < fontEnd ∧ hw.fontBase < base + n then some (.fontWrite (max base hw.fontBase))
  else none

/-- n bytes read, all checks before any transfer. -/
def State.readBlock (s : State) (base n : Nat) : Except Raise (List Byte) :=
  match s.checkRead base n with
  | some r => .error r
  | none => .ok (s.bytesFrom base n)

/-- Bytes written at ascending addresses, all checks before any transfer. -/
def State.writeBlock (s : State) (base : Nat) (bytes : List Byte) : Except Raise State :=
  match s.checkWrite base bytes.length with
  | some r => .error r
  | none => .ok (s.pokeAll base bytes)

/-- `Fetch(pc)`: the big-endian word at pc and pc + 1, both checked before either is read (20_memory.md R62). -/
def State.fetch (s : State) : Except Raise Word :=
  let a := s.pc.toNat
  if s.cfg.memSize ≤ a + 1 then .error (.fetchOor a)
  else .ok (wordOfBytes (s.byteAt a) (s.byteAt (a + 1)))

/-! ## Performing an instruction (40_step_and_tick.md R123, R125) -/

/-- An instruction that always completes: its effect `body` on the state after the advance. -/
def complete (s : State) (body : State → State) : Host.Outcome State Fault Refusal :=
  .next (body s.advance)

/-- An instruction that may raise: `body` runs on the state after the advance, and on a raise the state is put back to
`s`, the one before the fetch, and the fatal condition is taken with FOPC = the instruction's word (log 12). -/
def attempt (i : Instr) (s : State) (body : State → Except Raise State) : Host.Outcome State Fault Refusal :=
  match body s.advance with
  | .ok t => .next t
  | .error r => .next (s.takeFatal r (encode i))

/-- `report DecodeError(A, w)` after the advance: one record appended to DIAG, nothing else (30_encoding.md R105,
60_exceptions.md R226). -/
def State.reportDecodeError (s : State) (w : Word) : State :=
  { s.advance with diag := s.diag ++ [⟨s.pc, w⟩] }

/-! ## The key wait (45_keys_timers.md R204, 40_step_and_tick.md R122) -/

/-- `KEYDEST <- x; MODE <- BlockedOnKey`. -/
def State.block (s : State) (x : Reg) : State := { s with mode := .blockedOnKey, keydest := x }

/-- The wake with key k: `V[KEYDEST] <- zext_8(k); MODE <- Running`. -/
def State.wake (s : State) (k : Nat) : State :=
  { s.setReg s.keydest (BitVec.ofNat hw.xlen k) with mode := .running }

/-! ## The end of a tick (40_step_and_tick.md R127 to R130) -/

/-- A timer above 0 loses 1, a timer at 0 stays 0 (R128). -/
def timerDecay (t : TimerByte) : TimerByte := if t = 0 then 0 else t - 1

/-- The timer update: each timer independently, only if MODE is Running (R128). -/
def State.timerUpdate (s : State) : State :=
  { s with
    DT := if s.mode = .running then timerDecay s.DT else s.DT
    ST := if s.mode = .running then timerDecay s.ST else s.ST }

/-- The end of a tick that did not fault: the timer update, FRAME_READY, and the next tick's KEYS (R127, R129). -/
def State.endTick (s : State) : State :=
  { s.timerUpdate with
    phase := 0, frames := s.frames + 1, tickNo := s.tickNo + 1, keyTape := s.keyTape.tail, stage := .ticking }

/-- After a sub-step that left the machine in `s`: a raise ends the tick at once (R130; log 11); otherwise the tick goes
on, or ends after its IPT-th sub-step. -/
def State.afterSubStep (s : State) : State :=
  match s.mode with
  | .faulted => { s with phase := 0, stage := .ticking }
  | _ => if s.phase + 1 < s.cfg.ipt then { s with phase := s.phase + 1, stage := .ticking } else s.endTick

end Sys2Proof.Machine
end

