-- ==== Sys2Proof/Machine/Operands.lean ====
section
/-! DEFINITION. The operand forms: where data addresses and jump targets come from (43_index_memory.md R187, 41_flow.md R140). -/

namespace Sys2Proof.Machine

/-- The base of the one data addressing mode, I as a natural number; element r is at `dataBase s + r` (R187). -/
def State.dataBase (s : State) : Nat := s.I.toNat

/-- The target of `1nnn` and `2nnn` (R142, R143). -/
def absTarget (nnn : BitVec 12) : Word := zextAddr nnn

/-- The target of `Bnnn`: V[0] + nnn; the natural-number sum fits in 16 bits (R144). -/
def State.indexedTarget (s : State) (nnn : BitVec 12) : Word := zextByte (s.reg 0) + zextAddr nnn

/-- `GLYPH_BYTES * V[x]`, the glyph address of `Fx29`, not masked (43_index_memory.md R182). -/
def State.glyphAddress (s : State) (x : Reg) : Word := BitVec.ofNat hw.ilen (hw.glyphBytes * (s.reg x).toNat)

/-- The decimal digits of a byte: hundreds, tens, ones (43_index_memory.md R183). -/
def bcdDigits (a : Byte) : List Byte :=
  [BitVec.ofNat hw.xlen (a.toNat / 100), BitVec.ofNat hw.xlen (a.toNat / 10 % 10), BitVec.ofNat hw.xlen (a.toNat % 10)]

/-- A key index from a register is valid when it is below NKEYS, 0 to 15 (45_keys_timers.md R203): `keys[V[x]]`, or KEY_INDEX. -/
def State.keyOf (s : State) (x : Reg) : Except Raise Bool :=
  let k := (s.reg x).toNat
  if hw.nkeys ≤ k then .error (.keyIndex k) else .ok (s.keys.getLsbD k)

end Sys2Proof.Machine
end

