-- ==== Sys2Proof/Machine/Alu.lean ====
section
/-! DEFINITION. Load, arithmetic, logic, shifts, random: the meanings of 42_alu.md. Operands are read before any write,
and of two writes the later one in the table's order stands (R160). -/

namespace Sys2Proof.Machine

/-- `6xkk` (R161). -/
def execLdImm (x : Reg) (kk : Byte) (s : State) : Host.Outcome State Fault Refusal :=
  complete s fun t => t.setReg x kk

/-- `7xkk` (R162): no flag. -/
def execAddImm (x : Reg) (kk : Byte) (s : State) : Host.Outcome State Fault Refusal :=
  complete s fun t => t.setReg x (t.reg x + kk)

/-- `8xy0` (R164). -/
def execLdReg (x y : Reg) (s : State) : Host.Outcome State Fault Refusal :=
  complete s fun t => t.setReg x (t.reg y)

/-- `8xy1` (R165). -/
def execOrReg (x y : Reg) (s : State) : Host.Outcome State Fault Refusal :=
  complete s fun t => t.setReg x (t.reg x ||| t.reg y)

/-- `8xy2` (R166). -/
def execAndReg (x y : Reg) (s : State) : Host.Outcome State Fault Refusal :=
  complete s fun t => t.setReg x (t.reg x &&& t.reg y)

/-- `8xy3` (R167). -/
def execXorReg (x y : Reg) (s : State) : Host.Outcome State Fault Refusal :=
  complete s fun t => t.setReg x (t.reg x ^^^ t.reg y)

/-- `8xy4` (R168): Vx first, then VF. -/
def execAddReg (x y : Reg) (s : State) : Host.Outcome State Fault Refusal :=
  complete s fun t => (t.setReg x (t.reg x + t.reg y)).setReg VF (carryFlag (t.reg x) (t.reg y))

/-- `8xy5` (R169): VF first, then Vx. -/
def execSubReg (x y : Reg) (s : State) : Host.Outcome State Fault Refusal :=
  complete s fun t => (t.setReg VF (greaterFlag (t.reg x) (t.reg y))).setReg x (t.reg x - t.reg y)

/-- `8xy6` (R171): VF first, then Vx; y is ignored. -/
def execShr (x _y : Reg) (s : State) : Host.Outcome State Fault Refusal :=
  complete s fun t => (t.setReg VF (bit0Flag (t.reg x))).setReg x (t.reg x >>> 1)

/-- `8xy7` (R172): VF first, then Vx. -/
def execSubnReg (x y : Reg) (s : State) : Host.Outcome State Fault Refusal :=
  complete s fun t => (t.setReg VF (greaterFlag (t.reg y) (t.reg x))).setReg x (t.reg y - t.reg x)

/-- `8xyE` (R173): VF first, then Vx; y is ignored. -/
def execShl (x _y : Reg) (s : State) : Host.Outcome State Fault Refusal :=
  complete s fun t => (t.setReg VF (bit7Flag (t.reg x))).setReg x (t.reg x <<< 1)

/-- `Cxkk` (R174): a fresh byte under the mask kk. -/
def execRnd (x : Reg) (kk : Byte) (s : State) : Host.Outcome State Fault Refusal :=
  complete s fun t => t.consumeRnd.setReg x (t.rnd &&& kk)

end Sys2Proof.Machine
end

