-- ==== Sys2Proof/Machine/FrameBuffer.lean ====
section
/-! DEFINITION. The framebuffer's operations (44_display.md R190 to R192) and the sprite blitter (R194, R197). -/

namespace Sys2Proof.Machine

/-- The pixel a coordinate pair addresses: x reduced modulo 64 and y modulo 32 (10_state.md R42). -/
def FrameBuffer.pixel (fb : FrameBuffer) (cx cy : Nat) : Bool :=
  (fb[cy % hw.fbH]'(Nat.mod_lt cy (by decide)))[cx % hw.fbW]'(Nat.mod_lt cx (by decide))

/-- The framebuffer with that pixel set to `b`. -/
def FrameBuffer.put (fb : FrameBuffer) (cx cy : Nat) (b : Bool) : FrameBuffer :=
  have hy := Nat.mod_lt cy (by decide : hw.fbH > 0)
  have hx := Nat.mod_lt cx (by decide : hw.fbW > 0)
  fb.set (cy % hw.fbH) ((fb[cy % hw.fbH]'hy).set (cx % hw.fbW) b hx) hy

/-- `SetPixel(cx, cy, value)` (R190): XORs `value` into the addressed cell; the flag says whether the cell went from 1 to 0. -/
def FrameBuffer.setPixel (fb : FrameBuffer) (cx cy : Nat) (value : Bool) : FrameBuffer × Bool :=
  let old := fb.pixel cx cy
  (fb.put cx cy (old ^^ value), old && value)

/-- One column of a sprite row (R194): a set bit is plotted and its collision joins `hit`, a clear bit does nothing. -/
def FrameBuffer.plot (cx cy : Nat) (bit : Bool) (acc : FrameBuffer × Bool) : FrameBuffer × Bool :=
  if bit then
    let r := acc.1.setPixel cx cy true
    (r.1, acc.2 || r.2)
  else acc

/-- Columns `c`, ..., `c + k - 1` of a sprite row; column c is bit 7 - c of the byte (R197). -/
def FrameBuffer.drawColumns (vx cy : Nat) (b : Byte) (c : Nat) : Nat → FrameBuffer × Bool → FrameBuffer × Bool
  | 0, acc => acc
  | k + 1, acc => FrameBuffer.drawColumns vx cy b (c + 1) k (FrameBuffer.plot (vx + c) cy (b.getLsbD (7 - c)) acc)

/-- The rows of a sprite from framebuffer row `cy` down (R194). -/
def FrameBuffer.drawRows (vx cy : Nat) : List Byte → FrameBuffer × Bool → FrameBuffer × Bool
  | [], acc => acc
  | b :: rows, acc => FrameBuffer.drawRows vx (cy + 1) rows (FrameBuffer.drawColumns vx cy b 0 8 acc)

/-- The draw of R194 from `hit = 0`: the new framebuffer and `hit`. -/
def FrameBuffer.draw (fb : FrameBuffer) (vx vy : Nat) (rows : List Byte) : FrameBuffer × Bool :=
  FrameBuffer.drawRows vx vy rows (fb, false)

end Sys2Proof.Machine
end

