-- ==== Sys2Proof/Machine/Display.lean ====
section
/-! DEFINITION. The display instructions: the meanings of 44_display.md. -/

namespace Sys2Proof.Machine

/-- `00E0` (R193). -/
def execCls (s : State) : Host.Outcome State Fault Refusal :=
  complete s fun t => t.setFb FrameBuffer.clear

/-- `Dxyn` (R194): V[x], V[y] and I are sampled and all sprite addresses checked before VF or any pixel is written. -/
def execDrw (x y : Reg) (n : Nat) (s : State) : Host.Outcome State Fault Refusal :=
  attempt (.drw x y n) s fun t =>
    match t.readBlock t.dataBase n with
    | .error r => .error r
    | .ok rows =>
      let d := t.fb.draw (t.reg x).toNat (t.reg y).toNat rows
      .ok ((t.setFb d.1).setReg VF (collisionFlag d.2))

end Sys2Proof.Machine
end

