-- ==== Sys2Proof/Machine/Flow.lean ====
section
/-! DEFINITION. Control transfer: the meanings of 41_flow.md. In a body, `t.pc` is already (A + 2) mod 65536 (R134). -/

namespace Sys2Proof.Machine

/-- `00EE` (R141). -/
def execRet (s : State) : Host.Outcome State Fault Refusal :=
  attempt .ret s fun t =>
    match t.stack with
    | [] => .error .stackEmpty
    | a :: rest => .ok { t with pc := a, stack := rest }

/-- `1nnn` (R142). -/
def execJp (nnn : BitVec 12) (s : State) : Host.Outcome State Fault Refusal :=
  complete s fun t => t.setPc (absTarget nnn)

/-- `2nnn` (R143). -/
def execCall (nnn : BitVec 12) (s : State) : Host.Outcome State Fault Refusal :=
  attempt (.call nnn) s fun t =>
    if t.stackIsFull then .error .stackFull else .ok ((t.push t.pc).setPc (absTarget nnn))

/-- `Bnnn` (R144). -/
def execJpV0 (nnn : BitVec 12) (s : State) : Host.Outcome State Fault Refusal :=
  complete s fun t => t.setPc (t.indexedTarget nnn)

/-- `3xkk` (R145). -/
def execSeImm (x : Reg) (kk : Byte) (s : State) : Host.Outcome State Fault Refusal :=
  complete s fun t => t.skipIf (decide (t.reg x = kk))

/-- `4xkk` (R146). -/
def execSneImm (x : Reg) (kk : Byte) (s : State) : Host.Outcome State Fault Refusal :=
  complete s fun t => t.skipIf (decide (t.reg x ≠ kk))

/-- `5xy0` (R147): Vx against Vy (90_conflicts.md C7). -/
def execSeReg (x y : Reg) (s : State) : Host.Outcome State Fault Refusal :=
  complete s fun t => t.skipIf (decide (t.reg x = t.reg y))

/-- `9xy0` (R148). -/
def execSneReg (x y : Reg) (s : State) : Host.Outcome State Fault Refusal :=
  complete s fun t => t.skipIf (decide (t.reg x ≠ t.reg y))

end Sys2Proof.Machine
end

