-- ==== Sys2Proof/Machine/IndexMemory.lean ====
section
/-! DEFINITION. The index register and memory transfers: the meanings of 43_index_memory.md. I is left unchanged by the
transfers (R186). -/

namespace Sys2Proof.Machine

/-- `Annn` (R180). -/
def execLdI (nnn : BitVec 12) (s : State) : Host.Outcome State Fault Refusal :=
  complete s fun t => t.setI (zextAddr nnn)

/-- `Fx1E` (R181): modulo 65536, no flag. -/
def execAddI (x : Reg) (s : State) : Host.Outcome State Fault Refusal :=
  complete s fun t => t.setI (t.I + zextByte (t.reg x))

/-- `Fx29` (R182). -/
def execLdF (x : Reg) (s : State) : Host.Outcome State Fault Refusal :=
  complete s fun t => t.setI (t.glyphAddress x)

/-- `Fx33` (R183). -/
def execLdB (x : Reg) (s : State) : Host.Outcome State Fault Refusal :=
  attempt (.ldB x) s fun t => t.writeBlock t.dataBase (bcdDigits (t.reg x))

/-- `Fx55` (R184). -/
def execStRegs (x : Reg) (s : State) : Host.Outcome State Fault Refusal :=
  attempt (.stRegs x) s fun t => t.writeBlock t.dataBase (t.regsUpTo x)

/-- `Fx65` (R185). -/
def execLdRegs (x : Reg) (s : State) : Host.Outcome State Fault Refusal :=
  attempt (.ldRegs x) s fun t =>
    match t.readBlock t.dataBase (x.val + 1) with
    | .error r => .error r
    | .ok bytes => .ok (t.setRegsFrom 0 bytes)

end Sys2Proof.Machine
end

