-- ==== Sys2Proof/Machine/KeysTimers.lean ====
section
/-! DEFINITION. Keys and timers: the meanings of 45_keys_timers.md. -/

namespace Sys2Proof.Machine

/-- `Ex9E` (R201). -/
def execSkp (x : Reg) (s : State) : Host.Outcome State Fault Refusal :=
  attempt (.skp x) s fun t =>
    match t.keyOf x with
    | .error r => .error r
    | .ok down => .ok (t.skipIf down)

/-- `ExA1` (R202). -/
def execSknp (x : Reg) (s : State) : Host.Outcome State Fault Refusal :=
  attempt (.sknp x) s fun t =>
    match t.keyOf x with
    | .error r => .error r
    | .ok down => .ok (t.skipIf (!down))

/-- `Fx07` (R207). -/
def execLdVxDt (x : Reg) (s : State) : Host.Outcome State Fault Refusal :=
  complete s fun t => t.setReg x t.DT

/-- `Fx0A` (R204): only blocks; the wake of 40_step_and_tick.md R122 writes the register. -/
def execLdVxK (x : Reg) (s : State) : Host.Outcome State Fault Refusal :=
  complete s fun t => t.block x

/-- `Fx15` (R208). -/
def execLdDtVx (x : Reg) (s : State) : Host.Outcome State Fault Refusal :=
  complete s fun t => t.setDT (t.reg x)

/-- `Fx18` (R209). -/
def execLdStVx (x : Reg) (s : State) : Host.Outcome State Fault Refusal :=
  complete s fun t => t.setST (t.reg x)

end Sys2Proof.Machine
end

