-- ==== Sys2Proof/Machine/SubStep.lean ====
section
/-! DEFINITION. The sub-step: wake, fetch, advance, decode, execute (40_step_and_tick.md R121 to R125). -/

namespace Sys2Proof.Machine

/-- The part of R125 from `A <- pc` on, in a Running state: a failed fetch is fatal with FOPC = 0, an unknown opcode is
reported, an instruction is executed. -/
def fetchExecute (s : State) : Host.Outcome State Fault Refusal :=
  match s.fetch with
  | .error r => .next (s.takeFatal r 0)
  | .ok w =>
    match decodeWord w with
    | .error _ => .next (s.reportDecodeError w)
    | .ok i => exec i s

/-- `SubStep(keys, rnd)` (R125), the inputs being those of the state: idle when Faulted (R124), idle when blocked and no
key is down, a wake followed by the fetch when one is (R122). -/
def subStep (s : State) : Host.Outcome State Fault Refusal :=
  match s.mode with
  | .faulted => .next s
  | .running => fetchExecute s
  | .blockedOnKey =>
    match lowestPressed s.keys with
    | none => .next s
    | some k => fetchExecute (s.wake k)

end Sys2Proof.Machine
end

