-- ==== Sys2Proof/Machine/Step.lean ====
section
/-! DEFINITION. One step of the model: one sub-step and what the tick does after it (40_step_and_tick.md R127, R130, R131). -/

namespace Sys2Proof.Machine

/-- One iteration of the loop of `Tick` (R127) with, after the IPT-th, the end of the tick. A Faulted machine does nothing
(R124, R131). -/
def step (s : State) : Host.Outcome State Fault Refusal :=
  if s.mode = .faulted then .next s
  else
    match subStep s with
    | .next t => .next t.afterSubStep
    | .fault r => .fault r
    | .refused r => .refused r

/-- `s` with the table's word stored where the next step fetches and executes it: at pc, or at 0x200 with pc moved there
when pc and pc + 1 are not both writable bytes, and MODE = Running (log 15). -/
def State.withFetchWord (s : State) (nbits w : Nat) : State :=
  let a := if fontEnd ≤ s.pc.toNat ∧ s.pc.toNat + 1 < s.cfg.memSize then s.pc else BitVec.ofNat hw.pclen hw.progBase
  { s.pokeAll a.toNat (bytesOfWord (tableWord nbits w)) with pc := a, mode := .running }

end Sys2Proof.Machine
end

