-- ==== Sys2Proof/Machine/Tick.lean ====
section
/-! DEFINITION. The tick as the spec writes it (40_step_and_tick.md R127), the clear form of what IPT steps do. -/

namespace Sys2Proof.Machine

/-- The loop `for j = 1 to IPT`: it ends at a raise (R130). -/
def subSteps : Nat → State → Host.Outcome State Fault Refusal
  | 0, s => .next s
  | k + 1, s =>
    match subStep s with
    | .next t => if t.mode = .faulted then .next t else subSteps k t
    | .fault r => .fault r
    | .refused r => .refused r

/-- `Tick` (R127): nothing when Faulted (R131), else the sub-steps, and at the end of a tick that did not fault the timer
update and FRAME_READY. -/
def tick (s : State) : Host.Outcome State Fault Refusal :=
  if s.mode = .faulted then .next s
  else
    match subSteps s.cfg.ipt s with
    | .next t => .next (if t.mode = .faulted then { t with phase := 0, stage := .ticking } else t.endTick)
    | .fault r => .fault r
    | .refused r => .refused r

end Sys2Proof.Machine
end

