-- ==== Sys2Proof/Machine/Driver.lean ====
section
/-! DEFINITION. The host's side of the interface (70_reset_and_hazards.md R260 to R271). The host acts only between
ticks (R268); an action inside a tick, or a LOAD out of turn or too long, is refused by name. -/

namespace Sys2Proof.Machine

/-- Between ticks. -/
def State.betweenTicks (s : State) : Bool := s.phase == 0

/-- RESET (R260): every state element at its reset value, from any mode; the parameters stay, and the counters of the
free inputs go on, so that no free value is used twice (log 16). -/
def hostReset (s : State) : Host.Outcome State Fault Refusal :=
  if s.betweenTicks then
    .next { State.resetWith s.cfg with tickNo := s.tickNo + 1, draws := s.draws }
  else .refused .insideTick

/-- LOAD (R262, R263): byte k of the image to MEM[0x200 + k], nothing else; once, after RESET, before the first tick. -/
def hostLoad (image : List Byte) (s : State) : Host.Outcome State Fault Refusal :=
  if ¬ s.betweenTicks then .refused .insideTick
  else if s.stage ≠ .fresh then .refused .loadOutOfTurn
  else if s.cfg.memSize < hw.progBase + image.length then .refused .oversizeImage
  else .next { s.pokeAll hw.progBase image with stage := .loaded }

/-- KEYS (R266, R270): the value the block sees during the whole of the next tick. -/
def hostKeys (keys : KeySet) (s : State) : Host.Outcome State Fault Refusal :=
  if s.betweenTicks then .next { s with keyTape := [keys] } else .refused .insideTick

/-- TICK (R266): a batch when MODE is not Faulted, otherwise no effect. -/
def hostTick (s : State) : Host.Outcome State Fault Refusal :=
  if s.betweenTicks then tick s else .refused .insideTick

/-- The snapshot (44_display.md R192): the whole grid; reading it changes nothing. -/
def State.snapshot (s : State) : FrameBuffer := s.fb

/-- FATAL (60_exceptions.md R233): asserted exactly while MODE = Faulted, with FCAUSE, FPC and FOPC. -/
def State.fatal (s : State) : Option (Cause × Word × Word) :=
  match s.mode with
  | .faulted => some (s.fcause, s.fpc, s.fopc)
  | _ => none

/-- FRAME_READY was signalled between `s` and the next state `t` (40_step_and_tick.md R129). -/
def State.frameReady (s t : State) : Bool := decide (s.frames < t.frames)

end Sys2Proof.Machine
end

