-- ==== Sys2Proof/Safety.lean ====
section
/-! DEFINITION. The terms claims are stated in: what a good state is, which state an instruction may write, when it
raises, and the frames. Specification only: the machine does not use them. -/

namespace Sys2Proof.Machine

/-! ## Good states -/

/-- No fault recorded and no decode error reported: what a claim about a program takes or proves
(10_state.md R37, 60_exceptions.md R229). -/
def State.Clean (s : State) : Prop := s.mode ≠ .faulted ∧ s.diag = []

/-- The invariant of the machine. -/
structure State.Inv (s : State) : Prop where
  /-- the parameters are permitted (00_scope.md R9) -/
  params       : s.cfg.wf = true
  /-- memory is in its canonical form (log 13) -/
  canonical    : s.mem.wf s.cfg = true
  /-- only bytes above the font region and below MEM_SIZE were ever written (10_state.md R39, R40) -/
  writable     : s.mem.listsWritable s.cfg = true
  /-- STACK is at most STACK_DEPTH long (R20, R30) -/
  stackBound   : ∀ d, s.cfg.stackDepth = some d → s.stack.length ≤ d
  /-- the position inside the tick is below IPT (40_step_and_tick.md R127) -/
  phaseBound   : s.phase < s.cfg.ipt
  /-- while Faulted, a cause is recorded and pc is the address of the faulting instruction (R25, 60_exceptions.md R230) -/
  faultRecord  : s.mode = .faulted → s.fcause ≠ .none ∧ s.pc = s.fpc
  /-- FOPC is 0 when the fetch itself failed, the word of an instruction otherwise (10_state.md R36) -/
  faultWord    : s.mode = .faulted → (s.fcause = .fetchOor → s.fopc = 0) ∧
                   (s.fcause ≠ .fetchOor → ∃ i, decodeWord s.fopc = .ok i)
  /-- otherwise the fault record is as reset left it (R36) -/
  noRecord     : s.mode ≠ .faulted → s.fcause = .none ∧ s.fpc = 0 ∧ s.fopc = 0

/-! ## Frames -/

/-- Every byte of memory reads as before. -/
def SameMemory (s t : State) : Prop := ∀ a, t.byteAt a = s.byteAt a

/-- Every byte outside the n bytes from `base` reads as before. -/
def SameMemoryOutside (base n : Nat) (s t : State) : Prop :=
  ∀ a, ¬ (base ≤ a ∧ a < base + n) → t.byteAt a = s.byteAt a

/-- Every register outside `xs` reads as before. -/
def SameRegsExcept (xs : List Reg) (s t : State) : Prop := ∀ r, r ∉ xs → t.reg r = s.reg r

/-- `t` is `s` but for pc. -/
def OnlyPc (s t : State) : Prop := t = { s with pc := t.pc } ∧ SameMemory s t

/-- `t` is `s` but for V and pc. -/
def OnlyRegsAndPc (s t : State) : Prop := t = { s with V := t.V, pc := t.pc } ∧ SameMemory s t

/-- `i` completes in `s`, writes `b` to V[x], and leaves everything else but the advanced pc alone. -/
def WritesOneReg (i : Instr) (s : State) (x : Reg) (b : Byte) : Prop :=
  ∃ t, exec i s = .next t ∧ t.pc.toNat = (s.pc.toNat + 2) % 65536 ∧ t.reg x = b ∧ SameRegsExcept [x] s t ∧ OnlyRegsAndPc s t

/-- `i` completes in `s`, writes VF and V[x], and leaves everything else but the advanced pc alone. -/
def WritesRegAndFlag (i : Instr) (s : State) (x : Reg) (vx vf : Nat) : Prop :=
  ∃ t, exec i s = .next t ∧ t.pc.toNat = (s.pc.toNat + 2) % 65536 ∧ (t.reg x).toNat = vx ∧ (t.reg VF).toNat = vf ∧
    SameRegsExcept [x, VF] s t ∧ OnlyRegsAndPc s t

/-- `i` completes in `s`, skips the next instruction exactly when `cond` holds, and changes nothing but pc. -/
def SkipsWhen (cond : Prop) (i : Instr) (s : State) : Prop :=
  ∃ t, exec i s = .next t ∧ (cond → t.pc.toNat = (s.pc.toNat + 4) % 65536) ∧
    (¬ cond → t.pc.toNat = (s.pc.toNat + 2) % 65536) ∧ OnlyPc s t

/-- `i` raises the fatal condition `c` in `s`: a next state in which MODE and the fault record are written, FOPC being
every word that decodes to `i`, and nothing else changes (60_exceptions.md R229, R230). -/
def Raises (i : Instr) (s : State) (c : Cause) : Prop :=
  ∃ t, exec i s = .next t ∧ t = { s with mode := .faulted, fcause := c, fpc := s.pc, fopc := t.fopc } ∧
    (∀ w, decodeWord w = .ok i → t.fopc = w) ∧ SameMemory s t

end Sys2Proof.Machine

namespace Sys2Proof

open Sys2Proof.Machine

/-! ## Which state an instruction may write (the access matrix of 10_state.md R46) -/

/-- The columns of R46 an instruction can write; pc is written by the fetch of every instruction. -/
inductive Element
  | V | I | stack | DT | ST | wait | mem | fb | rnd
deriving DecidableEq, Repr

/-- The cells marked "w" in R46, with `wait` for MODE and KEYDEST, and `rnd` where the row reads a random byte. -/
def Instr.writes : Instr → List Element
  | .cls => [.fb]
  | .ret | .call _ => [.stack]
  | .jp _ | .jpV0 _ => []
  | .seImm _ _ | .sneImm _ _ | .seReg _ _ | .sneReg _ _ | .skp _ | .sknp _ => []
  | .ldImm _ _ | .addImm _ _ | .ldReg _ _ | .orReg _ _ | .andReg _ _ | .xorReg _ _ => [.V]
  | .addReg _ _ | .subReg _ _ | .shr _ _ | .subnReg _ _ | .shl _ _ => [.V]
  | .ldI _ | .addI _ | .ldF _ => [.I]
  | .rnd _ _ => [.V, .rnd]
  | .drw _ _ _ => [.V, .fb]
  | .ldVxDt _ | .ldRegs _ => [.V]
  | .ldVxK _ => [.wait]
  | .ldDtVx _ => [.DT]
  | .ldStVx _ => [.ST]
  | .ldB _ | .stRegs _ => [.mem]

/-- The registers an instruction may write: its destinations, and VF where it is written as a flag (10_state.md R23). -/
def Instr.writesReg (i : Instr) (r : Reg) : Prop :=
  match i with
  | .ldImm x _ | .addImm x _ | .ldReg x _ | .orReg x _ | .andReg x _ | .xorReg x _ | .rnd x _ | .ldVxDt x => r = x
  | .addReg x _ | .subReg x _ | .shr x _ | .subnReg x _ | .shl x _ => r = x ∨ r = VF
  | .drw _ _ _ => r = VF
  | .ldRegs x => r.val ≤ x.val
  | .cls | .ret | .jp _ | .call _ | .jpV0 _ | .ldI _ => False
  | .seImm _ _ | .sneImm _ _ | .seReg _ _ | .sneReg _ _ | .skp _ | .sknp _ => False
  | .ldVxK _ | .ldDtVx _ | .ldStVx _ | .addI _ | .ldF _ | .ldB _ | .stRegs _ => False

/-! ## When an instruction raises (60_exceptions.md R221, R223) -/

/-- The cause an instruction raises in `s`, `none` when it completes: the column "when" of R221. -/
def Instr.fatalCause (i : Instr) (s : State) : Cause :=
  match i with
  | .ret => if s.stack.length = 0 then .stackEmpty else .none
  | .call _ =>
    match s.cfg.stackDepth with
    | some d => if d ≤ s.stack.length then .stackFull else .none
    | none => .none
  | .drw _ _ n => if 0 < n ∧ s.cfg.memSize ≤ s.I.toNat + (n - 1) then .memReadOor else .none
  | .ldRegs x => if s.cfg.memSize ≤ s.I.toNat + x.val then .memReadOor else .none
  | .ldB _ =>
    if s.cfg.memSize ≤ s.I.toNat + 2 then .memWriteOor else if s.I.toNat ≤ 0x04F then .fontWrite else .none
  | .stRegs x =>
    if s.cfg.memSize ≤ s.I.toNat + x.val then .memWriteOor else if s.I.toNat ≤ 0x04F then .fontWrite else .none
  | .skp x | .sknp x => if 15 < (s.reg x).toNat then .keyIndex else .none
  | .cls | .jp _ | .jpV0 _ | .ldI _ => .none
  | .seImm _ _ | .sneImm _ _ | .seReg _ _ | .sneReg _ _ => .none
  | .ldImm _ _ | .addImm _ _ | .ldReg _ _ | .orReg _ _ | .andReg _ _ | .xorReg _ _ => .none
  | .addReg _ _ | .subReg _ _ | .shr _ _ | .subnReg _ _ | .shl _ _ | .rnd _ _ => .none
  | .ldVxDt _ | .ldVxK _ | .ldDtVx _ | .ldStVx _ | .addI _ | .ldF _ => .none

end Sys2Proof

namespace Sys2Proof.Machine

/-! ## The sprite (44_display.md R194, R197) -/

/-- The cell in column px, row py is one that a 1 bit of the n-row sprite at I falls on when it is drawn at (vx, vy). -/
def SpriteCovers (s : State) (vx vy n px py : Nat) : Prop :=
  ∃ r c, r < n ∧ c < 8 ∧ (s.byteAt (s.I.toNat + r)).getLsbD (7 - c) = true ∧
    px % 64 = (vx + c) % 64 ∧ py % 32 = (vy + r) % 32

/-! ## The opcode table (30_encoding.md R100) -/

/-- One row: a word w is its instruction exactly when w AND mask = match; the fields are those of R94. -/
structure OpcodeRow where
  mask  : Word
  value : Word
  build : (x y : Reg) → (kk : Byte) → (nnn : BitVec 12) → (n : Nat) → Instr

/-- Families 0 to 7 and 9 to D. -/
def opcodeRowsPlain : List OpcodeRow :=
  [⟨0xFFFF, 0x00E0, fun _ _ _ _ _ => .cls⟩, ⟨0xFFFF, 0x00EE, fun _ _ _ _ _ => .ret⟩,
   ⟨0xF000, 0x1000, fun _ _ _ nnn _ => .jp nnn⟩, ⟨0xF000, 0x2000, fun _ _ _ nnn _ => .call nnn⟩,
   ⟨0xF000, 0x3000, fun x _ kk _ _ => .seImm x kk⟩, ⟨0xF000, 0x4000, fun x _ kk _ _ => .sneImm x kk⟩,
   ⟨0xF00F, 0x5000, fun x y _ _ _ => .seReg x y⟩, ⟨0xF000, 0x6000, fun x _ kk _ _ => .ldImm x kk⟩,
   ⟨0xF000, 0x7000, fun x _ kk _ _ => .addImm x kk⟩, ⟨0xF00F, 0x9000, fun x y _ _ _ => .sneReg x y⟩,
   ⟨0xF000, 0xA000, fun _ _ _ nnn _ => .ldI nnn⟩, ⟨0xF000, 0xB000, fun _ _ _ nnn _ => .jpV0 nnn⟩,
   ⟨0xF000, 0xC000, fun x _ kk _ _ => .rnd x kk⟩, ⟨0xF000, 0xD000, fun x y _ _ n => .drw x y n⟩]

/-- Family 8. -/
def opcodeRowsAlu : List OpcodeRow :=
  [⟨0xF00F, 0x8000, fun x y _ _ _ => .ldReg x y⟩, ⟨0xF00F, 0x8001, fun x y _ _ _ => .orReg x y⟩,
   ⟨0xF00F, 0x8002, fun x y _ _ _ => .andReg x y⟩, ⟨0xF00F, 0x8003, fun x y _ _ _ => .xorReg x y⟩,
   ⟨0xF00F, 0x8004, fun x y _ _ _ => .addReg x y⟩, ⟨0xF00F, 0x8005, fun x y _ _ _ => .subReg x y⟩,
   ⟨0xF00F, 0x8006, fun x y _ _ _ => .shr x y⟩, ⟨0xF00F, 0x8007, fun x y _ _ _ => .subnReg x y⟩,
   ⟨0xF00F, 0x800E, fun x y _ _ _ => .shl x y⟩]

/-- Families E and F. -/
def opcodeRowsMisc : List OpcodeRow :=
  [⟨0xF0FF, 0xE09E, fun x _ _ _ _ => .skp x⟩, ⟨0xF0FF, 0xE0A1, fun x _ _ _ _ => .sknp x⟩,
   ⟨0xF0FF, 0xF007, fun x _ _ _ _ => .ldVxDt x⟩, ⟨0xF0FF, 0xF00A, fun x _ _ _ _ => .ldVxK x⟩,
   ⟨0xF0FF, 0xF015, fun x _ _ _ _ => .ldDtVx x⟩, ⟨0xF0FF, 0xF018, fun x _ _ _ _ => .ldStVx x⟩,
   ⟨0xF0FF, 0xF01E, fun x _ _ _ _ => .addI x⟩, ⟨0xF0FF, 0xF029, fun x _ _ _ _ => .ldF x⟩,
   ⟨0xF0FF, 0xF033, fun x _ _ _ _ => .ldB x⟩, ⟨0xF0FF, 0xF055, fun x _ _ _ _ => .stRegs x⟩,
   ⟨0xF0FF, 0xF065, fun x _ _ _ _ => .ldRegs x⟩]

/-- The 34 rows of R100. -/
def opcodeRows : List OpcodeRow := opcodeRowsPlain ++ opcodeRowsAlu ++ opcodeRowsMisc

/-- The instruction a row gives for the word w, its fields cut out as numbers: x = w[11:8], y = w[7:4], kk = w[7:0],
nnn = w[11:0], n = w[3:0] (R94). -/
def OpcodeRow.instr (row : OpcodeRow) (w : Word) : Instr :=
  row.build (Fin.ofNat 16 (w.toNat / 256)) (Fin.ofNat 16 (w.toNat / 16)) (BitVec.ofNat 8 w.toNat)
    (BitVec.ofNat 12 w.toNat) (w.toNat % 16)

end Sys2Proof.Machine
end

