-- ==== Sys2Proof/Certificates/Slice0/Obligations.lean ====
section
/-! DEFINITION. The statements for the provers. Each docstring names the rules of spec/ it formalises; a decision of
92_eei_decisions.md a statement rests on is named there as D<n>, a choice of the model as log <n>. -/

open Sys2Proof Sys2Proof.Machine

/-! ## Encoding -/

/-- Decode and encode agree on every well-formed instruction, whatever bytes follow (30_encoding.md sections 2 and 3,
20_memory.md section 2): no bit of an encoding is dropped. -/
def Obligations.EncodedBytesDecodeBack : Prop :=
  ∀ (i : Instr) (rest : List Byte), i.wellFormed = true → decodeBytes (encodeBytes i ++ rest) = .ok (i, rest)

/-- The word of a decoded instruction is the word it was decoded from, so the word a raise latches in FOPC is the word
fetched (log 12), and the decoder gives well-formed instructions only. -/
def Obligations.DecodedWordEncodesBack : Prop :=
  ∀ (w : Word) (i : Instr), decodeWord w = .ok i → encode i = w ∧ i.wellFormed = true

/-- R100, R94: a word is the instruction of a row exactly when (w AND mask) = match, with the fields cut out as R94 says,
and it is unknown exactly when no row matches. -/
def Obligations.DecoderFollowsOpcodeTable : Prop :=
  (∀ (w : Word) (i : Instr), decodeWord w = .ok i ↔
    ∃ row ∈ opcodeRows, w &&& row.mask = row.value ∧ row.instr w = i) ∧
  (∀ w : Word, (∃ r, decodeWord w = .error r) ↔ ∀ row ∈ opcodeRows, w &&& row.mask ≠ row.value)

/-- A few words written out from the patterns of R100, one of each format, and three unknown ones (R104). -/
def Obligations.SampleWordsDecode : Prop :=
  decodeWord 0b0000000011101110 = .ok .ret ∧
  decodeWord 0b0010001000010000 = .ok (.call 0x210) ∧
  decodeWord 0b0110101000101100 = .ok (.ldImm 0xA 0x2C) ∧
  decodeWord 0b1000000100100111 = .ok (.subnReg 1 2) ∧
  decodeWord 0b1101000000010010 = .ok (.drw 0 1 2) ∧
  decodeWord 0b1111001001010101 = .ok (.stRegs 2) ∧
  decodeWord 0b0101000100100001 = .error (.unknownOpcode 0x5121) ∧
  decodeWord 0b1000000000001000 = .error (.unknownOpcode 0x8008) ∧
  decodeWord 0b0000000000000000 = .error (.unknownOpcode 0x0000)

/-! ## Fetch and step -/

/-- R61: the byte at the lower address holds bits 15 to 8 of the word, the byte at the higher address bits 7 to 0, at
every address, even or odd. -/
def Obligations.FetchIsBigEndian : Prop :=
  ∀ s : State, s.pc.toNat + 1 < s.cfg.memSize →
    ∃ w, s.fetch = .ok w ∧ w.toNat = 256 * (s.byteAt s.pc.toNat).toNat + (s.byteAt (s.pc.toNat + 1)).toNat

/-- A step in which the two bytes at pc decode to `i` is `exec i` at that state, followed by what the tick does after a
sub-step, `afterSubStep` (40_step_and_tick.md sections 2 and 3); what that is, `AfterSubStepMovesTheTick` says. -/
def Obligations.StepRunsTheDecodedInstruction : Prop :=
  ∀ (s : State) (i : Instr) (rest : List Byte), s.mode = .running → s.pc.toNat + 1 < s.cfg.memSize →
    decodeBytes (s.bytesFrom s.pc.toNat 2) = .ok (i, rest) →
    (∀ t, exec i s = .next t → step s = .next t.afterSubStep) ∧
    (∀ r, exec i s = .fault r → step s = .fault r) ∧
    (∀ r, exec i s = .refused r → step s = .refused r)

/-- What `afterSubStep` adds (40_step_and_tick.md R127, R130; logs 9, 11): a raise ends the tick and nothing else; below
IPT only the position moves; at IPT the timer update, FRAME_READY and the next tick's KEYS. -/
def Obligations.AfterSubStepMovesTheTick : Prop :=
  ∀ s : State,
    (s.mode = .faulted → s.afterSubStep = { s with phase := 0, stage := .ticking }) ∧
    (s.mode ≠ .faulted → s.phase + 1 < s.cfg.ipt →
      s.afterSubStep = { s with phase := s.phase + 1, stage := .ticking }) ∧
    (s.mode ≠ .faulted → s.cfg.ipt ≤ s.phase + 1 →
      s.afterSubStep = { s with
        DT := s.afterSubStep.DT, ST := s.afterSubStep.ST, phase := 0, frames := s.frames + 1,
        tickNo := s.tickNo + 1, keyTape := s.keyTape.tail, stage := .ticking } ∧
      (s.mode = .running → s.afterSubStep.DT.toNat = s.DT.toNat - 1 ∧ s.afterSubStep.ST.toNat = s.ST.toNat - 1) ∧
      (s.mode = .blockedOnKey → s.afterSubStep.DT = s.DT ∧ s.afterSubStep.ST = s.ST))

/-- R105: an unknown opcode appends one record (A, w) to DIAG, leaves pc at (A + 2) mod 65536, changes nothing else, is
no fatal condition and uses up one sub-step. -/
def Obligations.UnknownOpcodeIsReportedAndSkipped : Prop :=
  ∀ (s : State) (w : Word), s.mode = .running → s.fetch = .ok w → (∃ r, decodeWord w = .error r) →
    ∃ t, step s = .next t.afterSubStep ∧ t.pc.toNat = (s.pc.toNat + 2) % 65536 ∧ t.diag = s.diag ++ [⟨s.pc, w⟩] ∧
      t = { s with pc := t.pc, diag := t.diag } ∧ SameMemory s t ∧ t.mode = .running ∧
      (s.phase + 1 < s.cfg.ipt → t.afterSubStep.phase = s.phase + 1)

/-- A fetch whose second byte is out of range is fatal: FETCH_OOR, FPC = pc, FOPC = 0, nothing else changed
(20_memory.md section 2; the form of the fault is the spec's decision D7, the absence of a wrap its D14). -/
def Obligations.FailedFetchIsFatal : Prop :=
  ∀ s : State, s.mode = .running → s.cfg.memSize ≤ s.pc.toNat + 1 →
    ∃ t, subStep s = .next t ∧ step s = .next t.afterSubStep ∧
      t = { s with mode := .faulted, fcause := .fetchOor, fpc := s.pc, fopc := 0 } ∧ SameMemory s t

/-- The wake: blocked with a key down, the sub-step writes the least pressed key's code to V[KEYDEST], sets MODE to
Running and is then the sub-step of that state, its fault included (40_step_and_tick.md section 2; that the wake is kept
when the instruction after it faults is the spec's decision D29). -/
def Obligations.WakeCapturesTheLeastKeyAndGoesOn : Prop :=
  ∀ s : State, s.mode = .blockedOnKey → s.keys ≠ 0 →
    ∃ k w, k < 16 ∧ s.keys.getLsbD k = true ∧ (∀ j < k, s.keys.getLsbD j = false) ∧
      w.mode = .running ∧ (w.reg s.keydest).toNat = k ∧ SameRegsExcept [s.keydest] s w ∧
      w = { s with V := w.V, mode := .running } ∧ SameMemory s w ∧
      subStep s = subStep w ∧ step s = step w

/-- While no key is pressed a blocked tick changes nothing of the hardware's state, the timers included; FRAME_READY is
still signalled (45_keys_timers.md section 1, 40_step_and_tick.md section 3). -/
def Obligations.BlockedTickIsIdle : Prop :=
  ∀ s : State, s.mode = .blockedOnKey → s.keys = 0 →
    step s = .next s.afterSubStep ∧
    tick s = .next { s with
      phase := 0, frames := s.frames + 1, tickNo := s.tickNo + 1, keyTape := s.keyTape.tail, stage := .ticking }

/-- Faulted is sticky: no step and no tick changes any state (the spec's decision D26). -/
def Obligations.FaultedMachineStaysPut : Prop :=
  ∀ s : State, s.mode = .faulted → step s = .next s ∧ tick s = .next s ∧ s.fatal = some (s.fcause, s.fpc, s.fopc)

/-- IPT steps of the model from the start of a tick are the `Tick` of 40_step_and_tick.md section 3, run to its end or to
the fatal condition that ends it (log 9). -/
def Obligations.IptStepsAreOneTick : Prop :=
  ∀ s : State, 1 ≤ s.cfg.ipt → s.phase = 0 → Sys2Proof.core.run s.cfg.ipt s = tick s

/-- R128: the timers change once per tick, after the last sub-step, only if MODE is then Running, each by one and not
below 0; inside the loop a sub-step changes DT only if it fetched an `Fx15` and ST only if it fetched an `Fx18`. -/
def Obligations.TimersChangeOncePerTick : Prop :=
  ∀ s u : State, s.mode ≠ .faulted → subStep s = .next u →
    ∃ t, step s = .next t ∧
      (s.phase + 1 < s.cfg.ipt → t.DT = u.DT ∧ t.ST = u.ST) ∧
      (s.cfg.ipt ≤ s.phase + 1 → u.mode = .running → t.DT.toNat = u.DT.toNat - 1 ∧ t.ST.toNat = u.ST.toNat - 1) ∧
      (u.mode ≠ .running → t.DT = u.DT ∧ t.ST = u.ST) ∧
      ((¬ ∃ w x, s.fetch = .ok w ∧ decodeWord w = .ok (.ldDtVx x)) → u.DT = s.DT) ∧
      ((¬ ∃ w x, s.fetch = .ok w ∧ decodeWord w = .ok (.ldStVx x)) → u.ST = s.ST)

/-- FRAME_READY is signalled once at the end of every tick that did not fault (40_step_and_tick.md section 3; the signals are
counted in a field of the model, log 10), and not by one that did (the spec's decision D25). -/
def Obligations.FrameReadyOncePerTick : Prop :=
  ∀ s t : State, s.mode ≠ .faulted → tick s = .next t →
    (t.mode ≠ .faulted → t.frames = s.frames + 1 ∧ s.frameReady t = true) ∧
    (t.mode = .faulted → t.frames = s.frames ∧ s.frameReady t = false)

/-- Fatal conditions are precise (60_exceptions.md section 4; the spec's decisions D7, D25, D29): a step that ends in
Faulted leaves every element as it was just before the fetch, pc included, with the fault record latched; only a wake
before the fetch is kept; the timers and FRAME_READY of the tick do not happen. -/
def Obligations.FatalConditionIsPrecise : Prop :=
  ∀ s t : State, s.mode ≠ .faulted → step s = .next t → t.mode = .faulted →
    t = { s with V := t.V, mode := .faulted, fcause := t.fcause, fpc := s.pc, fopc := t.fopc,
                 phase := 0, stage := .ticking } ∧
    SameMemory s t ∧
    t.fcause ≠ .none ∧
    (s.mode = .running → t.V = s.V) ∧
    (s.mode = .blockedOnKey → SameRegsExcept [s.keydest] s t ∧ s.keys.getLsbD (t.reg s.keydest).toNat = true) ∧
    ((s.cfg.memSize ≤ s.pc.toNat + 1 ∧ t.fcause = .fetchOor ∧ t.fopc = 0) ∨
      (∃ w, s.fetch = .ok w ∧ t.fopc = w ∧ t.fcause ≠ .fetchOor))

/-- The instructions that raise, exhaustively, and when (60_exceptions.md sections 2 and 4; causes and precision are the
spec's decisions D4, D7, D8, D10, D15): where R221's table gives no cause the instruction completes. -/
def Obligations.OnlyListedInstructionsRaise : Prop :=
  ∀ (i : Instr) (s : State),
    (i.fatalCause s = .none →
      ∃ t, exec i s = .next t ∧ t.fcause = s.fcause ∧ t.fpc = s.fpc ∧ t.fopc = s.fopc ∧
        (t.mode = s.mode ∨ t.mode = .blockedOnKey ∧ ∃ x, i = .ldVxK x)) ∧
    (∀ c, i.fatalCause s = c → c ≠ .none → Raises i s c)

/-- A sub-step is total: every state has a next state, in every mode and for every input, and every instruction answers
one (40_step_and_tick.md section 2). -/
def Obligations.EveryStepHasANextState : Prop :=
  (∀ s : State, ∃ t, step s = .next t) ∧ (∀ (i : Instr) (s : State), ∃ t, exec i s = .next t)

/-! ## Invariants -/

/-- The invariant holds after reset, under every permitted choice of the parameters. -/
def Obligations.ResetSatisfiesInvariant : Prop :=
  State.reset.Inv ∧ ∀ cfg : Config, cfg.wf = true → (State.resetWith cfg).Inv

/-- Every step keeps the invariant: permitted parameters, canonical memory with nothing stored in the font or past the
end, the stack within STACK_DEPTH, the position inside the tick, a fault record that says what happened and no record
otherwise (10_state.md sections 1, 6, 8, 9). -/
def Obligations.EveryStepKeepsInvariant : Prop :=
  ∀ s t : State, s.Inv → step s = .next t → t.Inv

/-- "font region bytes are immutable for the interpreter's lifetime" (10_state.md section 9; how that is kept is the
spec's decision D10): no step changes a byte at 0x000 to 0x04F, and none changes a parameter. -/
def Obligations.NoStepChangesFontOrParameters : Prop :=
  ∀ s t : State, step s = .next t → t.cfg = s.cfg ∧ ∀ a, a < 0x050 → t.byteAt a = s.byteAt a

/-- The canonical form is canonical (log 13): two memories in it that read alike at every address are equal. -/
def Obligations.CanonicalMemoriesReadingAlikeAreEqual : Prop :=
  ∀ (cfg : Config) (m m' : Memory), m.wf cfg = true → m'.wf cfg = true →
    (∀ a, m.read (resetByte cfg a) a = m'.read (resetByte cfg a) a) → m = m'

/-! ## Host interface -/

/-- RESET from any state between ticks gives the table of 10_state.md section 13 (the zeros of I, DT, ST, KEYDEST and the
fault record are the spec's decision D17): memory is FONT and zeros, pc = 0x200, MODE = Running, everything else 0 or
empty. -/
def Obligations.ResetGivesTheResetState : Prop :=
  ∀ s : State, s.phase = 0 →
    ∃ t, hostReset s = .next t ∧ t.cfg = s.cfg ∧ t.pc.toNat = 0x200 ∧ t.mode = .running ∧
      (∀ r, (t.reg r).toNat = 0) ∧ t.I.toNat = 0 ∧ t.DT.toNat = 0 ∧ t.ST.toNat = 0 ∧ t.stack = [] ∧ t.keydest.val = 0 ∧
      t.fcause.code = 0 ∧ t.fpc.toNat = 0 ∧ t.fopc.toNat = 0 ∧ t.diag = [] ∧
      (∀ cx cy, t.fb.pixel cx cy = false) ∧
      (∀ (d : Fin 16) (r : Fin 5), t.byteAt (5 * d.val + r.val) = s.cfg.font[d][r]) ∧
      (∀ a, 0x050 ≤ a → (t.byteAt a).toNat = 0)

/-- LOAD puts byte k of the image at 0x200 + k and changes nothing else, once and before the first tick; an oversize image
is refused (70_reset_and_hazards.md section 2; when LOAD has a meaning is the spec's decision D22). -/
def Obligations.LoadCopiesTheImage : Prop :=
  ∀ (s : State) (image : List Byte), s.phase = 0 → s.stage = .fresh →
    (0x200 + image.length ≤ s.cfg.memSize →
      ∃ t, hostLoad image s = .next t ∧ (∀ k (h : k < image.length), t.byteAt (0x200 + k) = image[k]) ∧
        SameMemoryOutside 0x200 image.length s t ∧ t = { s with mem := t.mem, stage := .loaded } ∧
        ∀ image', hostLoad image' t = .refused .loadOutOfTurn) ∧
    (s.cfg.memSize < 0x200 + image.length → hostLoad image s = .refused .oversizeImage)

/-- KEYS is constant during a tick (70_reset_and_hazards.md section 3): a step that does not end the tick leaves the value
the block sees as it was. -/
def Obligations.KeysConstantDuringTick : Prop :=
  ∀ s t : State, step s = .next t → t.phase ≠ 0 → t.keys = s.keys

/-! ## Control transfer -/

/-- R142: pc <- zext_16(nnn), nothing else. -/
def Obligations.JumpSetsPc : Prop :=
  ∀ (s : State) (nnn : BitVec 12), ∃ t, exec (.jp nnn) s = .next t ∧ t.pc.toNat = nnn.toNat ∧ OnlyPc s t

/-- `Bnnn` (41_flow.md section 2): pc <- V[0] + nnn, the plain natural-number sum (the spec's decision D31). -/
def Obligations.IndexedJumpAddsVZero : Prop :=
  ∀ (s : State) (nnn : BitVec 12),
    ∃ t, exec (.jpV0 nnn) s = .next t ∧ t.pc.toNat = (s.reg 0).toNat + nnn.toNat ∧ OnlyPc s t

/-- `2nnn` (41_flow.md section 2): A + 2 is pushed and pc becomes nnn, whenever the stack is unbounded or not full; on a
full one STACK_FULL is raised (the spec's decision D4). -/
def Obligations.CallPushesTheReturnAddress : Prop :=
  ∀ (s : State) (nnn : BitVec 12),
    ((∀ d, s.cfg.stackDepth = some d → s.stack.length < d) →
      ∃ t a, exec (.call nnn) s = .next t ∧ t.pc.toNat = nnn.toNat ∧ t.stack = a :: s.stack ∧
        a.toNat = (s.pc.toNat + 2) % 65536 ∧ t = { s with pc := t.pc, stack := t.stack } ∧ SameMemory s t) ∧
    (∀ d, s.cfg.stackDepth = some d → d ≤ s.stack.length → Raises (.call nnn) s .stackFull)

/-- `00EE` (41_flow.md section 2): the top of STACK is popped into pc; an empty stack is fatal (the record's form is the
spec's decisions D7, D8). -/
def Obligations.ReturnPopsIntoPc : Prop :=
  ∀ s : State,
    (∀ a rest, s.stack = a :: rest →
      ∃ t, exec .ret s = .next t ∧ t.pc = a ∧ t.stack = rest ∧ t = { s with pc := t.pc, stack := t.stack } ∧
        SameMemory s t) ∧
    (s.stack = [] → Raises .ret s .stackEmpty ∧ ∃ t, exec .ret s = .next t ∧ t.fopc.toNat = 0x00EE)

/-- A call and the matching return: from any later state whose stack is again the one the call left, `00EE` resumes at
the instruction after the call with the caller's stack (41_flow.md section 2). -/
def Obligations.ReturnResumesAfterTheCall : Prop :=
  ∀ (s t u : State) (nnn : BitVec 12), exec (.call nnn) s = .next t → t.fcause ≠ .stackFull → u.stack = t.stack →
    ∃ v, exec .ret u = .next v ∧ v.pc.toNat = (s.pc.toNat + 2) % 65536 ∧ v.stack = s.stack

/-- R145, R146, R149: `3xkk` skips exactly when V[x] = kk and `4xkk` exactly when V[x] ≠ kk; a taken skip leaves pc at
A + 4, one not taken at A + 2, and nothing else changes. -/
def Obligations.SkipOnImmediate : Prop :=
  ∀ (s : State) (x : Reg) (kk : Byte),
    SkipsWhen ((s.reg x).toNat = kk.toNat) (.seImm x kk) s ∧ SkipsWhen ((s.reg x).toNat ≠ kk.toNat) (.sneImm x kk) s

/-- R148: `9xy0` skips exactly when V[x] and V[y] differ; x = y never skips. -/
def Obligations.SkipOnUnequalRegisters : Prop :=
  ∀ (s : State) (x y : Reg), SkipsWhen ((s.reg x).toNat ≠ (s.reg y).toNat) (.sneReg x y) s

/-- `5xy0` (41_flow.md section 2) compares V[x] with V[y] (the spec's decision D2); x = y always skips. -/
def Obligations.SkipOnEqualRegisters : Prop :=
  ∀ (s : State) (x y : Reg), SkipsWhen ((s.reg x).toNat = (s.reg y).toNat) (.seReg x y) s

/-! ## Load, arithmetic, logic, random -/

/-- R161, R162, R164 to R167: one register is written, VF only when it is that register, everything else but pc kept. -/
def Obligations.LoadAddCopyAndLogicWriteOneRegister : Prop :=
  ∀ (s : State) (x y : Reg) (kk : Byte),
    WritesOneReg (.ldImm x kk) s x kk ∧
    (∃ b : Byte, b.toNat = ((s.reg x).toNat + kk.toNat) % 256 ∧ WritesOneReg (.addImm x kk) s x b) ∧
    WritesOneReg (.ldReg x y) s x (s.reg y) ∧
    (∃ b : Byte, (∀ k < 8, b.getLsbD k = ((s.reg x).getLsbD k || (s.reg y).getLsbD k)) ∧
      WritesOneReg (.orReg x y) s x b) ∧
    (∃ b : Byte, (∀ k < 8, b.getLsbD k = ((s.reg x).getLsbD k && (s.reg y).getLsbD k)) ∧
      WritesOneReg (.andReg x y) s x b) ∧
    (∃ b : Byte, (∀ k < 8, b.getLsbD k = ((s.reg x).getLsbD k ^^ (s.reg y).getLsbD k)) ∧
      WritesOneReg (.xorReg x y) s x b)

/-- `8xy4` (42_alu.md section 3): V[x] <- (a + b) mod 256 and VF <- 1 if a + b > 255 else 0. That with x = 15 the carry
stays is the spec's decision D12. -/
def Obligations.AddWritesSumThenCarry : Prop :=
  ∀ (s : State) (x y : Reg),
    let a := (s.reg x).toNat
    let b := (s.reg y).toNat
    (x ≠ VF → WritesRegAndFlag (.addReg x y) s x ((a + b) % 256) (if a + b > 255 then 1 else 0)) ∧
    (x = VF → WritesOneReg (.addReg x y) s VF (if a + b > 255 then 1 else 0))

/-- `8xy5`, `8xy7` (42_alu.md section 3): VF <- 1 iff the minuend is strictly greater, V[x] <- the difference mod 256. That
with x = 15 the difference stays is the spec's decision D12. -/
def Obligations.SubtractionsWriteFlagThenDifference : Prop :=
  ∀ (s : State) (x y : Reg),
    let a := (s.reg x).toNat
    let b := (s.reg y).toNat
    (x ≠ VF →
      WritesRegAndFlag (.subReg x y) s x ((a + 256 - b) % 256) (if a > b then 1 else 0) ∧
      WritesRegAndFlag (.subnReg x y) s x ((b + 256 - a) % 256) (if b > a then 1 else 0)) ∧
    (x = VF →
      WritesOneReg (.subReg x y) s VF (BitVec.ofNat 8 (a + 256 - b)) ∧
      WritesOneReg (.subnReg x y) s VF (BitVec.ofNat 8 (b + 256 - a)))

/-- `8xy6`, `8xyE` (42_alu.md section 3): the shifts act on V[x] alone, VF receives the bit shifted out, y changes nothing.
That with x = 15 the shifted value stays is the spec's decision D12. -/
def Obligations.ShiftsCaptureTheBitShiftedOut : Prop :=
  ∀ (s : State) (x y : Reg),
    let a := (s.reg x).toNat
    (x ≠ VF →
      WritesRegAndFlag (.shr x y) s x (a / 2) (a % 2) ∧
      WritesRegAndFlag (.shl x y) s x (2 * a % 256) (a / 128)) ∧
    (x = VF →
      WritesOneReg (.shr x y) s VF (BitVec.ofNat 8 (a / 2)) ∧
      WritesOneReg (.shl x y) s VF (BitVec.ofNat 8 (2 * a)))

/-- `Cxkk` (42_alu.md section 4): V[x] <- rnd AND kk for the byte drawn, whatever it is (the draw is a free input, the
spec's decision D16, log 8); any byte can be the one drawn. -/
def Obligations.RandomByteUnderTheMask : Prop :=
  ∀ (s : State) (x : Reg) (kk : Byte),
    (∃ t, exec (.rnd x kk) s = .next t ∧ t.pc.toNat = (s.pc.toNat + 2) % 65536 ∧
      (∀ k < 8, (t.reg x).getLsbD k = (s.rnd.getLsbD k && kk.getLsbD k)) ∧ SameRegsExcept [x] s t ∧
      t = { s with V := t.V, pc := t.pc, rndTape := s.rndTape.tail, draws := s.draws + 1 } ∧ SameMemory s t) ∧
    (∀ b : Byte, ({ s with rndTape := b :: s.rndTape } : State).rnd = b)

/-! ## Index register and memory -/

/-- R180: I <- zext_16(nnn), nothing else but pc. -/
def Obligations.LoadIndexImmediate : Prop :=
  ∀ (s : State) (nnn : BitVec 12),
    ∃ t, exec (.ldI nnn) s = .next t ∧ t.pc.toNat = (s.pc.toNat + 2) % 65536 ∧ t.I.toNat = nnn.toNat ∧
      t = { s with I := t.I, pc := t.pc } ∧ SameMemory s t

/-- `Fx1E`, `Fx29` (43_index_memory.md section 2): I <- (I + V[x]) mod 65536 and I <- 5 * V[x], with no mask and no flag
(the spec's decisions D13, D31). -/
def Obligations.IndexArithmeticWritesOnlyI : Prop :=
  ∀ (s : State) (x : Reg),
    (∃ t, exec (.addI x) s = .next t ∧ t.pc.toNat = (s.pc.toNat + 2) % 65536 ∧
      t.I.toNat = (s.I.toNat + (s.reg x).toNat) % 65536 ∧ t = { s with I := t.I, pc := t.pc } ∧ SameMemory s t) ∧
    (∃ t, exec (.ldF x) s = .next t ∧ t.pc.toNat = (s.pc.toNat + 2) % 65536 ∧
      t.I.toNat = 5 * (s.reg x).toNat ∧ t = { s with I := t.I, pc := t.pc } ∧ SameMemory s t)

/-- `Fx33` (43_index_memory.md section 3): hundreds, tens and ones of V[x] at I, I + 1, I + 2, every other byte and all
else but pc kept; past MEM_SIZE or inside the font region it raises and writes nothing (decisions D7, D10, D14). -/
def Obligations.BcdStoreWritesThreeDigits : Prop :=
  ∀ (s : State) (x : Reg), 4096 ≤ s.cfg.memSize →
    (0x050 ≤ s.dataBase → s.dataBase + 2 < s.cfg.memSize →
      ∃ t, exec (.ldB x) s = .next t ∧ t.pc.toNat = (s.pc.toNat + 2) % 65536 ∧
        (t.byteAt s.dataBase).toNat = (s.reg x).toNat / 100 ∧
        (t.byteAt (s.dataBase + 1)).toNat = (s.reg x).toNat / 10 % 10 ∧
        (t.byteAt (s.dataBase + 2)).toNat = (s.reg x).toNat % 10 ∧
        SameMemoryOutside s.dataBase 3 s t ∧ t = { s with pc := t.pc, mem := t.mem }) ∧
    (s.cfg.memSize ≤ s.dataBase + 2 → Raises (.ldB x) s .memWriteOor) ∧
    (s.dataBase ≤ 0x04F → Raises (.ldB x) s .fontWrite)

/-- `Fx55` (43_index_memory.md section 3): V[r] to I + r for r from 0 to x, every other byte, I and all else but pc kept;
past MEM_SIZE or inside the font region it raises and writes nothing (decisions D7, D10, D14, D21). -/
def Obligations.StoreRegistersWritesTheBlock : Prop :=
  ∀ (s : State) (x : Reg), 4096 ≤ s.cfg.memSize →
    (0x050 ≤ s.dataBase → s.dataBase + x.val < s.cfg.memSize →
      ∃ t, exec (.stRegs x) s = .next t ∧ t.pc.toNat = (s.pc.toNat + 2) % 65536 ∧
        (∀ r : Reg, r.val ≤ x.val → t.byteAt (s.dataBase + r.val) = s.reg r) ∧
        SameMemoryOutside s.dataBase (x.val + 1) s t ∧ t = { s with pc := t.pc, mem := t.mem }) ∧
    (s.cfg.memSize ≤ s.dataBase + x.val → Raises (.stRegs x) s .memWriteOor) ∧
    (s.dataBase ≤ 0x04F → Raises (.stRegs x) s .fontWrite)

/-- `Fx65` (43_index_memory.md section 3): I + r to V[r] for r from 0 to x, the font region included; the registers above
x, I, memory and all else but pc kept; past MEM_SIZE it raises and writes nothing (decisions D7, D14, D21). -/
def Obligations.LoadRegistersReadsTheBlock : Prop :=
  ∀ (s : State) (x : Reg),
    (s.dataBase + x.val < s.cfg.memSize →
      ∃ t, exec (.ldRegs x) s = .next t ∧ t.pc.toNat = (s.pc.toNat + 2) % 65536 ∧
        (∀ r : Reg, r.val ≤ x.val → t.reg r = s.byteAt (s.dataBase + r.val)) ∧
        (∀ r : Reg, x.val < r.val → t.reg r = s.reg r) ∧ OnlyRegsAndPc s t) ∧
    (s.cfg.memSize ≤ s.dataBase + x.val → Raises (.ldRegs x) s .memReadOor)

/-- The round trip (43_index_memory.md section 3): `Fx55` that completes, then `Fx65` with the same x from any later state
with the same I in which those bytes still stand, restores V0 to Vx. -/
def Obligations.StoreThenLoadRestoresRegisters : Prop :=
  ∀ (s t u : State) (x : Reg), s.mode ≠ .faulted → exec (.stRegs x) s = .next t → t.mode ≠ .faulted →
    u.cfg = t.cfg → u.I = t.I → (∀ r, r ≤ x.val → u.byteAt (t.I.toNat + r) = t.byteAt (t.I.toNat + r)) →
    ∃ v, exec (.ldRegs x) u = .next v ∧ v.mode = u.mode ∧ ∀ r : Reg, r.val ≤ x.val → v.reg r = s.reg r

/-- A store is seen by the next fetch with no further action (20_memory.md section 6): `Fx55` with I at the next
instruction makes the fetch after it read V0 and V1. -/
def Obligations.StoreIsSeenByTheNextFetch : Prop :=
  ∀ (s t : State) (x : Reg), s.mode ≠ .faulted → 1 ≤ x.val → s.I = s.pc + 2 → exec (.stRegs x) s = .next t →
    t.mode ≠ .faulted →
    ∃ w, t.fetch = .ok w ∧ w.toNat = 256 * (s.reg 0).toNat + (s.reg 1).toNat

/-! ## Display -/

/-- R193, R191: every pixel becomes 0, nothing else but pc changes. -/
def Obligations.ClearScreenClearsEveryPixel : Prop :=
  ∀ s : State, ∃ t, exec .cls s = .next t ∧ t.pc.toNat = (s.pc.toNat + 2) % 65536 ∧
    (∀ cx cy, t.fb.pixel cx cy = false) ∧ t = { s with pc := t.pc, fb := t.fb } ∧ SameMemory s t

/-- R190: SetPixel XORs the value into the one cell addressed modulo (64, 32) and answers true exactly when that cell went
from 1 to 0; every other cell is kept. -/
def Obligations.SetPixelXorsOneCell : Prop :=
  ∀ (fb : FrameBuffer) (cx cy : Nat) (value : Bool),
    (fb.setPixel cx cy value).1.pixel cx cy = (fb.pixel cx cy ^^ value) ∧
    (∀ px py, ¬ (px % 64 = cx % 64 ∧ py % 32 = cy % 32) → (fb.setPixel cx cy value).1.pixel px py = fb.pixel px py) ∧
    ((fb.setPixel cx cy value).2 = true ↔
      fb.pixel cx cy = true ∧ (fb.setPixel cx cy value).1.pixel cx cy = false) ∧
    fb.setPixel (cx % 64) (cy % 32) value = fb.setPixel cx cy value

/-- `Dxyn` (44_display.md sections 2 and 3; checks before effects are the spec's decision D32): the framebuffer becomes its
XOR with the sprite image wrapped per pixel, VF is 1 exactly when a covered cell was set; V[x], V[y] and I are sampled
first; everything else but pc is kept; past MEM_SIZE it raises and draws nothing. -/
def Obligations.DrawXorsTheWrappedSprite : Prop :=
  ∀ (s : State) (x y : Reg) (n : Nat), n < 16 →
    let vx := (s.reg x).toNat
    let vy := (s.reg y).toNat
    (n = 0 ∨ s.dataBase + (n - 1) < s.cfg.memSize →
      ∃ t, exec (.drw x y n) s = .next t ∧ t.pc.toNat = (s.pc.toNat + 2) % 65536 ∧
        (∀ px py, (SpriteCovers s vx vy n px py → t.fb.pixel px py = !s.fb.pixel px py) ∧
          (¬ SpriteCovers s vx vy n px py → t.fb.pixel px py = s.fb.pixel px py)) ∧
        ((∃ px py, SpriteCovers s vx vy n px py ∧ s.fb.pixel px py = true) → (t.reg VF).toNat = 1) ∧
        ((¬ ∃ px py, SpriteCovers s vx vy n px py ∧ s.fb.pixel px py = true) → (t.reg VF).toNat = 0) ∧
        SameRegsExcept [VF] s t ∧ t = { s with V := t.V, pc := t.pc, fb := t.fb } ∧ SameMemory s t) ∧
    (0 < n → s.cfg.memSize ≤ s.dataBase + (n - 1) → Raises (.drw x y n) s .memReadOor)

/-- Drawing twice (44_display.md section 3): the same draw again, with the same coordinates, I and sprite bytes and no
other change of the framebuffer, restores it, and gives VF = 1 exactly when the first set at least one pixel. -/
def Obligations.DrawingTwiceRestoresTheFramebuffer : Prop :=
  ∀ (s t u : State) (x y : Reg) (n : Nat), n < 16 → s.mode ≠ .faulted →
    exec (.drw x y n) s = .next t → t.mode ≠ .faulted →
    u.fb = t.fb → u.I = s.I → u.cfg = s.cfg → u.reg x = s.reg x → u.reg y = s.reg y →
    (∀ r, r < n → u.byteAt (s.I.toNat + r) = s.byteAt (s.I.toNat + r)) →
    ∃ v, exec (.drw x y n) u = .next v ∧ v.fb = s.fb ∧
      ((v.reg VF).toNat = 1 ↔
        ∃ px py, SpriteCovers s (s.reg x).toNat (s.reg y).toNat n px py ∧ s.fb.pixel px py = false)

/-! ## Keys and timers -/

/-- `Ex9E`, `ExA1` (45_keys_timers.md section 1): with V[x] at most 15 they skip exactly when that key is, or is not,
pressed; a larger V[x] raises KEY_INDEX (the spec's decision D15). -/
def Obligations.KeySkipsTestOneKey : Prop :=
  ∀ (s : State) (x : Reg),
    ((s.reg x).toNat ≤ 15 →
      SkipsWhen (s.keys.getLsbD (s.reg x).toNat = true) (.skp x) s ∧
      SkipsWhen (s.keys.getLsbD (s.reg x).toNat = false) (.sknp x) s) ∧
    (15 < (s.reg x).toNat → Raises (.skp x) s .keyIndex ∧ Raises (.sknp x) s .keyIndex)

/-- `Fx0A` (45_keys_timers.md section 1): KEYDEST <- x and MODE <- BlockedOnKey, nothing else but pc, which is A + 2 while
blocked (the spec's decision D18): no register is written and no key is looked at. -/
def Obligations.WaitForKeyOnlyBlocks : Prop :=
  ∀ (s : State) (x : Reg),
    ∃ t, exec (.ldVxK x) s = .next t ∧ t.pc.toNat = (s.pc.toNat + 2) % 65536 ∧ t.mode = .blockedOnKey ∧
      t.keydest = x ∧ (∀ r, t.reg r = s.reg r) ∧
      t = { s with pc := t.pc, mode := t.mode, keydest := t.keydest } ∧ SameMemory s t

/-- `Fx07`, `Fx15`, `Fx18` (45_keys_timers.md section 2): V[x] <- DT, DT <- V[x], ST <- V[x], nothing else but pc. -/
def Obligations.TimerTransfersMoveOneByte : Prop :=
  ∀ (s : State) (x : Reg),
    WritesOneReg (.ldVxDt x) s x s.DT ∧
    (∃ t, exec (.ldDtVx x) s = .next t ∧ t.pc.toNat = (s.pc.toNat + 2) % 65536 ∧ t.DT = s.reg x ∧
      t = { s with pc := t.pc, DT := t.DT } ∧ SameMemory s t) ∧
    (∃ t, exec (.ldStVx x) s = .next t ∧ t.pc.toNat = (s.pc.toNat + 2) % 65536 ∧ t.ST = s.reg x ∧
      t = { s with pc := t.pc, ST := t.ST } ∧ SameMemory s t)

/-! ## Rules of the whole machine -/

/-- The access matrix (10_state.md section 12): an instruction that answers a next state leaves every column its row does
not mark "w" as it was; MODE changes only by a raise or by `Fx0A`, the fault record only by a raise; DIAG, the
parameters, the KEYS input and the position inside the tick by no instruction. -/
def Obligations.InstructionsWriteOnlyTheirMatrixCells : Prop :=
  ∀ (i : Instr) (s t : State), exec i s = .next t →
    (Element.V ∉ i.writes → ∀ r, t.reg r = s.reg r) ∧
    (Element.I ∉ i.writes → t.I = s.I) ∧
    (Element.stack ∉ i.writes → t.stack = s.stack) ∧
    (Element.DT ∉ i.writes → t.DT = s.DT) ∧
    (Element.ST ∉ i.writes → t.ST = s.ST) ∧
    (Element.wait ∉ i.writes → t.keydest = s.keydest ∧ (t.mode = s.mode ∨ t.mode = .faulted)) ∧
    (Element.mem ∉ i.writes → SameMemory s t) ∧
    (Element.fb ∉ i.writes → t.fb = s.fb) ∧
    (Element.rnd ∉ i.writes → t.rndTape = s.rndTape ∧ t.draws = s.draws) ∧
    (t.mode ≠ .faulted → t.fcause = s.fcause ∧ t.fpc = s.fpc ∧ t.fopc = s.fopc) ∧
    t.diag = s.diag ∧ t.cfg = s.cfg ∧ t.keyTape = s.keyTape ∧ t.tickNo = s.tickNo ∧ t.phase = s.phase ∧
    t.frames = s.frames ∧ t.stage = s.stage

/-- Which registers an instruction may write (10_state.md sections 2 and 3): its destination, VF for the six flag writers,
V0 to Vx for `Fx65`; every other register is kept, VF included. -/
def Obligations.OnlyNamedRegistersAreWritten : Prop :=
  ∀ (i : Instr) (s t : State) (r : Reg), exec i s = .next t → ¬ i.writesReg r → t.reg r = s.reg r

/-- Only a fetch out of range, an unknown opcode or a raise of R221's table ends a clean run in a Running state
(60_exceptions.md sections 1 to 3). -/
def Obligations.OnlyTheseEndACleanRun : Prop :=
  ∀ s t : State, s.Clean → s.mode = .running → step s = .next t → ¬ t.Clean →
    s.cfg.memSize ≤ s.pc.toNat + 1 ∨
    ∃ w, s.fetch = .ok w ∧ ((∃ r, decodeWord w = .error r) ∨ ∃ i, decodeWord w = .ok i ∧ i.fatalCause s ≠ .none)
end

