-- ==== Sys2Proof/Laws/Decode.lean ====
section
/-! SUPPORT. Fields and formats as natural numbers; what each format's word gives back at each field, a word from its fields. -/

namespace Sys2Proof

theorem toNat_append_eq {n m : Nat} (a : BitVec n) (b : BitVec m) : (a ++ b).toNat = 2 ^ m * a.toNat + b.toNat := by
  rw [BitVec.toNat_append, ← Nat.shiftLeft_add_eq_or_of_lt b.isLt, Nat.shiftLeft_eq, Nat.mul_comm]

/-! ### The parameters of 00_scope.md R8 as numbers, for arithmetic -/

theorem fontEnd_eq : fontEnd = 80 := rfl

theorem nreg_eq : hw.nreg = 16 := rfl

theorem fbH_eq : hw.fbH = 32 := rfl

theorem byte_lt (b : Byte) : b.toNat < 256 := b.isLt

theorem word_lt (w : Word) : w.toNat < 65536 := w.isLt

theorem reg_lt (x : Reg) : x.val < 16 := x.isLt

theorem toNat_zextAddr (nnn : BitVec 12) : (zextAddr nnn).toNat = nnn.toNat := by
  have := nnn.isLt
  simp; omega

theorem toNat_zextByte (b : Byte) : (zextByte b).toNat = b.toNat := by
  have := byte_lt b
  simp; omega

/-! ### The fields of 30_encoding.md R94 as numbers -/

theorem toNat_topNibble (w : Word) : (topNibble w).toNat = w.toNat / 4096 := by
  have := word_lt w
  simp [topNibble, Nat.shiftRight_eq_div_pow]; omega

theorem val_fieldX (w : Word) : (fieldX w).val = w.toNat / 256 % 16 := by
  simp [fieldX, Nat.shiftRight_eq_div_pow]

theorem val_fieldY (w : Word) : (fieldY w).val = w.toNat / 16 % 16 := by
  simp [fieldY, Nat.shiftRight_eq_div_pow]

theorem toNat_lowNibble (w : Word) : (lowNibble w).toNat = w.toNat % 16 := by simp [lowNibble]

theorem toNat_fieldKk (w : Word) : (fieldKk w).toNat = w.toNat % 256 := by simp [fieldKk]

theorem toNat_fieldNnn (w : Word) : (fieldNnn w).toNat = w.toNat % 4096 := by simp [fieldNnn]

/-! ### The formats of R93 as numbers -/

theorem toNat_formatA (op : BitVec 4) (nnn : BitVec 12) : (formatA op nnn).toNat = 4096 * op.toNat + nnn.toNat :=
  toNat_append_eq op nnn

theorem toNat_formatXK (op : BitVec 4) (x : Reg) (kk : Byte) :
    (formatXK op x kk).toNat = 4096 * op.toNat + 256 * x.val + kk.toNat := by
  have h1 : (formatXK op x kk).toNat = 2 ^ 8 * (op ++ BitVec.ofFin (w := 4) x).toNat + kk.toNat := toNat_append_eq _ _
  have hx : (BitVec.ofFin (w := 4) x).toNat = x.val := rfl
  rw [h1, toNat_append_eq, hx]; omega

theorem toNat_formatXY (op : BitVec 4) (x y : Reg) (f : BitVec 4) :
    (formatXY op x y f).toNat = 4096 * op.toNat + 256 * x.val + 16 * y.val + f.toNat := by
  have h1 : (formatXY op x y f).toNat =
      2 ^ 4 * (op ++ BitVec.ofFin (w := 4) x ++ BitVec.ofFin (w := 4) y).toNat + f.toNat := toNat_append_eq _ _
  have hx : (BitVec.ofFin (w := 4) x).toNat = x.val := rfl
  have hy : (BitVec.ofFin (w := 4) y).toNat = y.val := rfl
  rw [h1, toNat_append_eq, toNat_append_eq, hx, hy]; omega

/-! ### Each field of each format -/

variable (op f : BitVec 4) (x y : Reg) (kk : Byte) (nnn : BitVec 12)

theorem topNibble_formatA : topNibble (formatA op nnn) = op := by
  have := nnn.isLt
  apply BitVec.eq_of_toNat_eq; rw [toNat_topNibble, toNat_formatA]; omega

theorem fieldNnn_formatA : fieldNnn (formatA op nnn) = nnn := by
  have := nnn.isLt
  apply BitVec.eq_of_toNat_eq; rw [toNat_fieldNnn, toNat_formatA]; omega

theorem topNibble_formatXK : topNibble (formatXK op x kk) = op := by
  have := byte_lt kk; have := reg_lt x
  apply BitVec.eq_of_toNat_eq; rw [toNat_topNibble, toNat_formatXK]; omega

theorem fieldX_formatXK : fieldX (formatXK op x kk) = x := by
  have := byte_lt kk; have := reg_lt x
  apply Fin.ext; rw [val_fieldX, toNat_formatXK]; omega

theorem fieldKk_formatXK : fieldKk (formatXK op x kk) = kk := by
  have := byte_lt kk; have := reg_lt x
  apply BitVec.eq_of_toNat_eq; rw [toNat_fieldKk, toNat_formatXK]; omega

theorem topNibble_formatXY : topNibble (formatXY op x y f) = op := by
  have := f.isLt; have := reg_lt x; have := reg_lt y
  apply BitVec.eq_of_toNat_eq; rw [toNat_topNibble, toNat_formatXY]; omega

theorem fieldX_formatXY : fieldX (formatXY op x y f) = x := by
  have := f.isLt; have := reg_lt x; have := reg_lt y
  apply Fin.ext; rw [val_fieldX, toNat_formatXY]; omega

theorem fieldY_formatXY : fieldY (formatXY op x y f) = y := by
  have := f.isLt; have := reg_lt x; have := reg_lt y
  apply Fin.ext; rw [val_fieldY, toNat_formatXY]; omega

theorem lowNibble_formatXY : lowNibble (formatXY op x y f) = f := by
  have := f.isLt; have := reg_lt x; have := reg_lt y
  apply BitVec.eq_of_toNat_eq; rw [toNat_lowNibble, toNat_formatXY]; omega

/-! ### A word is made of its fields -/

theorem formatA_fields (w : Word) : formatA (topNibble w) (fieldNnn w) = w := by
  have := word_lt w
  apply BitVec.eq_of_toNat_eq; rw [toNat_formatA, toNat_topNibble, toNat_fieldNnn]; omega

theorem formatXK_fields (w : Word) : formatXK (topNibble w) (fieldX w) (fieldKk w) = w := by
  have := word_lt w
  apply BitVec.eq_of_toNat_eq; rw [toNat_formatXK, toNat_topNibble, val_fieldX, toNat_fieldKk]; omega

theorem formatXY_fields (w : Word) : formatXY (topNibble w) (fieldX w) (fieldY w) (lowNibble w) = w := by
  have := word_lt w
  apply BitVec.eq_of_toNat_eq
  rw [toNat_formatXY, toNat_topNibble, val_fieldX, val_fieldY, toNat_lowNibble]; omega

/-! ### Bytes -/

theorem toNat_wordOfBytes (hi lo : Byte) : (wordOfBytes hi lo).toNat = 256 * hi.toNat + lo.toNat :=
  toNat_append_eq hi lo

theorem wordOfBytes_bytesOfWord (w : Word) : wordOfBytes (w.extractLsb' 8 8) (w.extractLsb' 0 8) = w := by
  have := word_lt w
  apply BitVec.eq_of_toNat_eq
  rw [toNat_wordOfBytes]; simp [Nat.shiftRight_eq_div_pow]; omega

theorem bytesOfWord_wordOfBytes (hi lo : Byte) : bytesOfWord (wordOfBytes hi lo) = [hi, lo] := by
  have := byte_lt hi; have := byte_lt lo
  have h1 : (wordOfBytes hi lo).extractLsb' 8 8 = hi := by
    apply BitVec.eq_of_toNat_eq; simp [toNat_wordOfBytes, Nat.shiftRight_eq_div_pow]; omega
  have h2 : (wordOfBytes hi lo).extractLsb' 0 8 = lo := by
    apply BitVec.eq_of_toNat_eq; simp [toNat_wordOfBytes]; omega
  rw [bytesOfWord, h1, h2]

theorem decodeBytes_bytesOfWord (w : Word) (rest : List Byte) :
    decodeBytes (bytesOfWord w ++ rest) =
      match decodeWord w with
      | .ok i => .ok (i, rest)
      | .error r => .error r := by
  cases h : decodeWord w <;> simp [bytesOfWord, decodeBytes, wordOfBytes_bytesOfWord, h]

end Sys2Proof
end

