-- ==== Sys2Proof/Laws/FrameBuffer.lean ====
section
/-! SUPPORT. The framebuffer: a put changes one cell, a draw flips the covered cells and reports the common ones (44_display.md R195). -/

namespace Sys2Proof.Machine.FrameBuffer

theorem pixel_mod (fb : FrameBuffer) (cx cy : Nat) : fb.pixel (cx % hw.fbW) (cy % hw.fbH) = fb.pixel cx cy := by
  simp [pixel]

theorem pixel_congr (fb : FrameBuffer) {cx cy px py : Nat} (hx : px % hw.fbW = cx % hw.fbW)
    (hy : py % hw.fbH = cy % hw.fbH) : fb.pixel px py = fb.pixel cx cy := by
  simp only [pixel, hx, hy]

theorem pixel_put (fb : FrameBuffer) (cx cy px py : Nat) (b : Bool) :
    (fb.put cx cy b).pixel px py =
      if px % hw.fbW = cx % hw.fbW ∧ py % hw.fbH = cy % hw.fbH then b else fb.pixel px py := by
  have hpy := Nat.mod_lt py (by decide : hw.fbH > 0)
  have hpx := Nat.mod_lt px (by decide : hw.fbW > 0)
  simp only [pixel, put]
  by_cases hy : cy % hw.fbH = py % hw.fbH
  · by_cases hx : cx % hw.fbW = px % hw.fbW
    · simp [hy, hx]
    · simp [hy, hx, Ne.symm hx]
  · simp [hy, Ne.symm hy]

theorem pixel_clear (cx cy : Nat) : clear.pixel cx cy = false := by simp [pixel, clear]

/-- Two framebuffers that show the same pixels are equal. -/
theorem ext_pixel {f g : FrameBuffer} (h : ∀ cx cy, f.pixel cx cy = g.pixel cx cy) : f = g := by
  apply Vector.ext
  intro y hy
  apply Vector.ext
  intro x hx
  have := h x y
  simpa only [pixel, Nat.mod_eq_of_lt hx, Nat.mod_eq_of_lt hy] using this

/-- The cell (px, py) is one that a 1 bit in columns c, ..., c + k - 1 of the byte `b` falls on. -/
def ColumnsCover (vx cy : Nat) (b : Byte) (c k px py : Nat) : Prop :=
  ∃ j, c ≤ j ∧ j < c + k ∧ b.getLsbD (7 - j) = true ∧ px % hw.fbW = (vx + j) % hw.fbW ∧ py % hw.fbH = cy % hw.fbH

theorem plot_pixel (cx cy px py : Nat) (bit : Bool) (acc : FrameBuffer × Bool) :
    (plot cx cy bit acc).1.pixel px py =
      if bit = true ∧ px % hw.fbW = cx % hw.fbW ∧ py % hw.fbH = cy % hw.fbH then !acc.1.pixel px py
      else acc.1.pixel px py := by
  cases bit
  · simp [plot]
  · simp only [plot, setPixel, if_true, pixel_put]
    by_cases h : px % hw.fbW = cx % hw.fbW ∧ py % hw.fbH = cy % hw.fbH
    · simp [h, pixel_congr acc.1 h.1 h.2]
    · simp [h]

theorem plot_hit (cx cy : Nat) (bit : Bool) (acc : FrameBuffer × Bool) :
    (plot cx cy bit acc).2 = (acc.2 || (bit && acc.1.pixel cx cy)) := by
  cases bit <;> simp [plot, setPixel]

theorem drawColumns_spec (vx cy : Nat) (b : Byte) (k : Nat) : ∀ (c : Nat) (acc : FrameBuffer × Bool), c + k ≤ 8 →
    (∀ px py, (ColumnsCover vx cy b c k px py →
        (drawColumns vx cy b c k acc).1.pixel px py = !acc.1.pixel px py) ∧
      (¬ ColumnsCover vx cy b c k px py → (drawColumns vx cy b c k acc).1.pixel px py = acc.1.pixel px py)) ∧
    ((drawColumns vx cy b c k acc).2 = true ↔
      acc.2 = true ∨ ∃ px py, ColumnsCover vx cy b c k px py ∧ acc.1.pixel px py = true) := by
  induction k with
  | zero =>
    intro c acc _
    have h0 : ∀ px py, ¬ ColumnsCover vx cy b c 0 px py := by
      rintro px py ⟨j, h1, h2, _⟩; omega
    refine ⟨fun px py => ⟨fun h => absurd h (h0 px py), fun _ => rfl⟩, ?_⟩
    simp [drawColumns, h0]
  | succ k ih =>
    intro c acc hc
    obtain ⟨ihp, ihh⟩ := ih (c + 1) (plot (vx + c) cy (b.getLsbD (7 - c)) acc) (by omega)
    have hsplit : ∀ px py, ColumnsCover vx cy b c (k + 1) px py ↔
        (b.getLsbD (7 - c) = true ∧ px % hw.fbW = (vx + c) % hw.fbW ∧ py % hw.fbH = cy % hw.fbH) ∨
          ColumnsCover vx cy b (c + 1) k px py := by
      intro px py
      constructor
      · rintro ⟨j, h1, h2, h3⟩
        by_cases hj : j = c
        · subst hj; exact .inl h3
        · exact .inr ⟨j, by omega, by omega, h3⟩
      · rintro (h | ⟨j, h1, h2, h3⟩)
        · exact ⟨c, le_refl _, by omega, h⟩
        · exact ⟨j, by omega, by omega, h3⟩
    have hexcl : ∀ px py, px % hw.fbW = (vx + c) % hw.fbW → ¬ ColumnsCover vx cy b (c + 1) k px py := by
      rintro px py hx ⟨j, h1, h2, _, h4, _⟩
      simp only at hx h4
      omega
    refine ⟨fun px py => ?_, ?_⟩
    · obtain ⟨p1, p2⟩ := ihp px py
      rw [hsplit]
      simp only [drawColumns]
      by_cases hA : b.getLsbD (7 - c) = true ∧ px % hw.fbW = (vx + c) % hw.fbW ∧ py % hw.fbH = cy % hw.fbH
      · have := p2 (hexcl px py hA.2.1)
        rw [plot_pixel, if_pos hA] at this
        exact ⟨fun _ => this, fun h => absurd (Or.inl hA) h⟩
      · rw [plot_pixel, if_neg hA] at p1 p2
        exact ⟨fun h => p1 (h.resolve_left hA), fun h => p2 (fun h' => h (Or.inr h'))⟩
    · simp only [drawColumns]
      rw [ihh, plot_hit]
      constructor
      · rintro (h | ⟨px, py, h1, h2⟩)
        · rcases Bool.or_eq_true _ _ |>.mp h with h | h
          · exact .inl h
          · rw [Bool.and_eq_true] at h
            exact .inr ⟨vx + c, cy, (hsplit _ _).2 (.inl ⟨h.1, rfl, rfl⟩), h.2⟩
        · have hne : ¬ (b.getLsbD (7 - c) = true ∧ px % hw.fbW = (vx + c) % hw.fbW ∧
              py % hw.fbH = cy % hw.fbH) := fun h => hexcl px py h.2.1 h1
          rw [plot_pixel, if_neg hne] at h2
          exact .inr ⟨px, py, (hsplit _ _).2 (.inr h1), h2⟩
      · rintro (h | ⟨px, py, h1, h2⟩)
        · exact .inl (by simp [h])
        · rcases (hsplit px py).1 h1 with h | h
          · left
            rw [pixel_congr acc.1 h.2.1 h.2.2] at h2
            simp only [h.1, h2, Bool.and_self, Bool.or_true]
          · right
            refine ⟨px, py, h, ?_⟩
            have hne : ¬ (b.getLsbD (7 - c) = true ∧ px % hw.fbW = (vx + c) % hw.fbW ∧
              py % hw.fbH = cy % hw.fbH) := fun h' => hexcl px py h'.2.1 h
            rw [plot_pixel, if_neg hne]; exact h2

/-- The cell (px, py) is one that a 1 bit of the sprite falls on, wrapped per pixel (44_display.md R194, R197). -/
def RowsCover (vx cy : Nat) (rows : List Byte) (px py : Nat) : Prop :=
  ∃ r, ∃ h : r < rows.length, ColumnsCover vx (cy + r) rows[r] 0 8 px py

theorem drawRows_spec (vx : Nat) (rows : List Byte) : ∀ (cy : Nat) (acc : FrameBuffer × Bool), rows.length ≤ hw.fbH →
    (∀ px py, (RowsCover vx cy rows px py → (drawRows vx cy rows acc).1.pixel px py = !acc.1.pixel px py) ∧
      (¬ RowsCover vx cy rows px py → (drawRows vx cy rows acc).1.pixel px py = acc.1.pixel px py)) ∧
    ((drawRows vx cy rows acc).2 = true ↔
      acc.2 = true ∨ ∃ px py, RowsCover vx cy rows px py ∧ acc.1.pixel px py = true) := by
  induction rows with
  | nil =>
    intro cy acc _
    have h0 : ∀ px py, ¬ RowsCover vx cy [] px py := by rintro px py ⟨r, h, _⟩; simp at h
    refine ⟨fun px py => ⟨fun h => absurd h (h0 px py), fun _ => rfl⟩, ?_⟩
    simp [drawRows, h0]
  | cons b rows ih =>
    intro cy acc hlen
    simp only [List.length_cons] at hlen
    obtain ⟨cp, ch⟩ := drawColumns_spec vx cy b 8 0 acc (by decide)
    obtain ⟨rp, rh⟩ := ih (cy + 1) (drawColumns vx cy b 0 8 acc) (by show rows.length ≤ 32; omega)
    have hsplit : ∀ px py, RowsCover vx cy (b :: rows) px py ↔
        ColumnsCover vx cy b 0 8 px py ∨ RowsCover vx (cy + 1) rows px py := by
      intro px py
      constructor
      · rintro ⟨r, h, hc⟩
        cases r with
        | zero => exact .inl hc
        | succ r =>
          refine .inr ⟨r, by simpa using h, ?_⟩
          rw [show cy + 1 + r = cy + (r + 1) by omega]; exact hc
      · rintro (h | ⟨r, h, hc⟩)
        · exact ⟨0, by simp, h⟩
        · refine ⟨r + 1, by simpa using h, ?_⟩
          rw [show cy + (r + 1) = cy + 1 + r by omega]; exact hc
    have hexcl : ∀ px py, ColumnsCover vx cy b 0 8 px py → ¬ RowsCover vx (cy + 1) rows px py := by
      rintro px py ⟨j, _, _, _, _, h5⟩ ⟨r, hr, ⟨j', _, _, _, _, h5'⟩⟩
      simp only at h5 h5' hlen
      omega
    refine ⟨fun px py => ?_, ?_⟩
    · rw [hsplit]
      simp only [drawRows]
      by_cases hA : ColumnsCover vx cy b 0 8 px py
      · refine ⟨fun _ => ?_, fun h => absurd (Or.inl hA) h⟩
        rw [(rp px py).2 (hexcl px py hA), (cp px py).1 hA]
      · refine ⟨fun h => ?_, fun h => ?_⟩
        · rw [(rp px py).1 (h.resolve_left hA), (cp px py).2 hA]
        · rw [(rp px py).2 (fun h' => h (Or.inr h')), (cp px py).2 hA]
    · simp only [drawRows]
      rw [rh, ch]
      constructor
      · rintro ((h | ⟨px, py, h1, h2⟩) | ⟨px, py, h1, h2⟩)
        · exact .inl h
        · exact .inr ⟨px, py, (hsplit _ _).2 (.inl h1), h2⟩
        · have hA : ¬ ColumnsCover vx cy b 0 8 px py := fun h => hexcl px py h h1
          rw [(cp px py).2 hA] at h2
          exact .inr ⟨px, py, (hsplit _ _).2 (.inr h1), h2⟩
      · rintro (h | ⟨px, py, h1, h2⟩)
        · exact .inl (.inl h)
        · rcases (hsplit px py).1 h1 with h | h
          · exact .inl (.inr ⟨px, py, h, h2⟩)
          · have hA : ¬ ColumnsCover vx cy b 0 8 px py := fun h' => hexcl px py h' h
            refine .inr ⟨px, py, h, ?_⟩
            rw [(cp px py).2 hA]; exact h2

/-- What a draw of at most 32 rows does: it flips exactly the covered cells, and its flag says whether a covered cell was
set (R195). -/
theorem draw_spec (fb : FrameBuffer) (vx vy : Nat) (rows : List Byte) (h : rows.length ≤ hw.fbH) :
    (∀ px py, (RowsCover vx vy rows px py → (fb.draw vx vy rows).1.pixel px py = !fb.pixel px py) ∧
      (¬ RowsCover vx vy rows px py → (fb.draw vx vy rows).1.pixel px py = fb.pixel px py)) ∧
    ((fb.draw vx vy rows).2 = true ↔ ∃ px py, RowsCover vx vy rows px py ∧ fb.pixel px py = true) := by
  obtain ⟨hp, hh⟩ := drawRows_spec vx rows vy (fb, false) h
  refine ⟨hp, ?_⟩
  simpa [draw] using hh

end Sys2Proof.Machine.FrameBuffer
end

