-- ==== Sys2Proof/Laws/State.lean ====
section
/-! SUPPORT. One lemma per field per named update of the state, true by rfl; the updates that repeat or branch after them. -/

namespace Sys2Proof.Machine.State

variable (s : State)

/-! ### setReg -/

@[simp] theorem setReg_V (x : Reg) (b : Byte) : (s.setReg x b).V = s.V.set x b := rfl
@[simp] theorem setReg_I (x : Reg) (b : Byte) : (s.setReg x b).I = s.I := rfl
@[simp] theorem setReg_pc (x : Reg) (b : Byte) : (s.setReg x b).pc = s.pc := rfl
@[simp] theorem setReg_stack (x : Reg) (b : Byte) : (s.setReg x b).stack = s.stack := rfl
@[simp] theorem setReg_DT (x : Reg) (b : Byte) : (s.setReg x b).DT = s.DT := rfl
@[simp] theorem setReg_ST (x : Reg) (b : Byte) : (s.setReg x b).ST = s.ST := rfl
@[simp] theorem setReg_mode (x : Reg) (b : Byte) : (s.setReg x b).mode = s.mode := rfl
@[simp] theorem setReg_keydest (x : Reg) (b : Byte) : (s.setReg x b).keydest = s.keydest := rfl
@[simp] theorem setReg_fcause (x : Reg) (b : Byte) : (s.setReg x b).fcause = s.fcause := rfl
@[simp] theorem setReg_fpc (x : Reg) (b : Byte) : (s.setReg x b).fpc = s.fpc := rfl
@[simp] theorem setReg_fopc (x : Reg) (b : Byte) : (s.setReg x b).fopc = s.fopc := rfl
@[simp] theorem setReg_diag (x : Reg) (b : Byte) : (s.setReg x b).diag = s.diag := rfl
@[simp] theorem setReg_mem (x : Reg) (b : Byte) : (s.setReg x b).mem = s.mem := rfl
@[simp] theorem setReg_fb (x : Reg) (b : Byte) : (s.setReg x b).fb = s.fb := rfl
@[simp] theorem setReg_cfg (x : Reg) (b : Byte) : (s.setReg x b).cfg = s.cfg := rfl
@[simp] theorem setReg_keyTape (x : Reg) (b : Byte) : (s.setReg x b).keyTape = s.keyTape := rfl
@[simp] theorem setReg_rndTape (x : Reg) (b : Byte) : (s.setReg x b).rndTape = s.rndTape := rfl
@[simp] theorem setReg_tickNo (x : Reg) (b : Byte) : (s.setReg x b).tickNo = s.tickNo := rfl
@[simp] theorem setReg_draws (x : Reg) (b : Byte) : (s.setReg x b).draws = s.draws := rfl
@[simp] theorem setReg_phase (x : Reg) (b : Byte) : (s.setReg x b).phase = s.phase := rfl
@[simp] theorem setReg_frames (x : Reg) (b : Byte) : (s.setReg x b).frames = s.frames := rfl
@[simp] theorem setReg_stage (x : Reg) (b : Byte) : (s.setReg x b).stage = s.stage := rfl

/-! ### setPc -/

@[simp] theorem setPc_V (p : Word) : (s.setPc p).V = s.V := rfl
@[simp] theorem setPc_I (p : Word) : (s.setPc p).I = s.I := rfl
@[simp] theorem setPc_pc (p : Word) : (s.setPc p).pc = p := rfl
@[simp] theorem setPc_stack (p : Word) : (s.setPc p).stack = s.stack := rfl
@[simp] theorem setPc_DT (p : Word) : (s.setPc p).DT = s.DT := rfl
@[simp] theorem setPc_ST (p : Word) : (s.setPc p).ST = s.ST := rfl
@[simp] theorem setPc_mode (p : Word) : (s.setPc p).mode = s.mode := rfl
@[simp] theorem setPc_keydest (p : Word) : (s.setPc p).keydest = s.keydest := rfl
@[simp] theorem setPc_fcause (p : Word) : (s.setPc p).fcause = s.fcause := rfl
@[simp] theorem setPc_fpc (p : Word) : (s.setPc p).fpc = s.fpc := rfl
@[simp] theorem setPc_fopc (p : Word) : (s.setPc p).fopc = s.fopc := rfl
@[simp] theorem setPc_diag (p : Word) : (s.setPc p).diag = s.diag := rfl
@[simp] theorem setPc_mem (p : Word) : (s.setPc p).mem = s.mem := rfl
@[simp] theorem setPc_fb (p : Word) : (s.setPc p).fb = s.fb := rfl
@[simp] theorem setPc_cfg (p : Word) : (s.setPc p).cfg = s.cfg := rfl
@[simp] theorem setPc_keyTape (p : Word) : (s.setPc p).keyTape = s.keyTape := rfl
@[simp] theorem setPc_rndTape (p : Word) : (s.setPc p).rndTape = s.rndTape := rfl
@[simp] theorem setPc_tickNo (p : Word) : (s.setPc p).tickNo = s.tickNo := rfl
@[simp] theorem setPc_draws (p : Word) : (s.setPc p).draws = s.draws := rfl
@[simp] theorem setPc_phase (p : Word) : (s.setPc p).phase = s.phase := rfl
@[simp] theorem setPc_frames (p : Word) : (s.setPc p).frames = s.frames := rfl
@[simp] theorem setPc_stage (p : Word) : (s.setPc p).stage = s.stage := rfl

/-! ### advance -/

@[simp] theorem advance_V : (s.advance).V = s.V := rfl
@[simp] theorem advance_I : (s.advance).I = s.I := rfl
@[simp] theorem advance_pc : (s.advance).pc = s.pc + 2 := rfl
@[simp] theorem advance_stack : (s.advance).stack = s.stack := rfl
@[simp] theorem advance_DT : (s.advance).DT = s.DT := rfl
@[simp] theorem advance_ST : (s.advance).ST = s.ST := rfl
@[simp] theorem advance_mode : (s.advance).mode = s.mode := rfl
@[simp] theorem advance_keydest : (s.advance).keydest = s.keydest := rfl
@[simp] theorem advance_fcause : (s.advance).fcause = s.fcause := rfl
@[simp] theorem advance_fpc : (s.advance).fpc = s.fpc := rfl
@[simp] theorem advance_fopc : (s.advance).fopc = s.fopc := rfl
@[simp] theorem advance_diag : (s.advance).diag = s.diag := rfl
@[simp] theorem advance_mem : (s.advance).mem = s.mem := rfl
@[simp] theorem advance_fb : (s.advance).fb = s.fb := rfl
@[simp] theorem advance_cfg : (s.advance).cfg = s.cfg := rfl
@[simp] theorem advance_keyTape : (s.advance).keyTape = s.keyTape := rfl
@[simp] theorem advance_rndTape : (s.advance).rndTape = s.rndTape := rfl
@[simp] theorem advance_tickNo : (s.advance).tickNo = s.tickNo := rfl
@[simp] theorem advance_draws : (s.advance).draws = s.draws := rfl
@[simp] theorem advance_phase : (s.advance).phase = s.phase := rfl
@[simp] theorem advance_frames : (s.advance).frames = s.frames := rfl
@[simp] theorem advance_stage : (s.advance).stage = s.stage := rfl

/-! ### skipIf -/

@[simp] theorem skipIf_V (c : Bool) : (s.skipIf c).V = s.V := rfl
@[simp] theorem skipIf_I (c : Bool) : (s.skipIf c).I = s.I := rfl
@[simp] theorem skipIf_pc (c : Bool) : (s.skipIf c).pc = if c then s.pc + 2 else s.pc := rfl
@[simp] theorem skipIf_stack (c : Bool) : (s.skipIf c).stack = s.stack := rfl
@[simp] theorem skipIf_DT (c : Bool) : (s.skipIf c).DT = s.DT := rfl
@[simp] theorem skipIf_ST (c : Bool) : (s.skipIf c).ST = s.ST := rfl
@[simp] theorem skipIf_mode (c : Bool) : (s.skipIf c).mode = s.mode := rfl
@[simp] theorem skipIf_keydest (c : Bool) : (s.skipIf c).keydest = s.keydest := rfl
@[simp] theorem skipIf_fcause (c : Bool) : (s.skipIf c).fcause = s.fcause := rfl
@[simp] theorem skipIf_fpc (c : Bool) : (s.skipIf c).fpc = s.fpc := rfl
@[simp] theorem skipIf_fopc (c : Bool) : (s.skipIf c).fopc = s.fopc := rfl
@[simp] theorem skipIf_diag (c : Bool) : (s.skipIf c).diag = s.diag := rfl
@[simp] theorem skipIf_mem (c : Bool) : (s.skipIf c).mem = s.mem := rfl
@[simp] theorem skipIf_fb (c : Bool) : (s.skipIf c).fb = s.fb := rfl
@[simp] theorem skipIf_cfg (c : Bool) : (s.skipIf c).cfg = s.cfg := rfl
@[simp] theorem skipIf_keyTape (c : Bool) : (s.skipIf c).keyTape = s.keyTape := rfl
@[simp] theorem skipIf_rndTape (c : Bool) : (s.skipIf c).rndTape = s.rndTape := rfl
@[simp] theorem skipIf_tickNo (c : Bool) : (s.skipIf c).tickNo = s.tickNo := rfl
@[simp] theorem skipIf_draws (c : Bool) : (s.skipIf c).draws = s.draws := rfl
@[simp] theorem skipIf_phase (c : Bool) : (s.skipIf c).phase = s.phase := rfl
@[simp] theorem skipIf_frames (c : Bool) : (s.skipIf c).frames = s.frames := rfl
@[simp] theorem skipIf_stage (c : Bool) : (s.skipIf c).stage = s.stage := rfl

/-! ### setI -/

@[simp] theorem setI_V (v : Word) : (s.setI v).V = s.V := rfl
@[simp] theorem setI_I (v : Word) : (s.setI v).I = v := rfl
@[simp] theorem setI_pc (v : Word) : (s.setI v).pc = s.pc := rfl
@[simp] theorem setI_stack (v : Word) : (s.setI v).stack = s.stack := rfl
@[simp] theorem setI_DT (v : Word) : (s.setI v).DT = s.DT := rfl
@[simp] theorem setI_ST (v : Word) : (s.setI v).ST = s.ST := rfl
@[simp] theorem setI_mode (v : Word) : (s.setI v).mode = s.mode := rfl
@[simp] theorem setI_keydest (v : Word) : (s.setI v).keydest = s.keydest := rfl
@[simp] theorem setI_fcause (v : Word) : (s.setI v).fcause = s.fcause := rfl
@[simp] theorem setI_fpc (v : Word) : (s.setI v).fpc = s.fpc := rfl
@[simp] theorem setI_fopc (v : Word) : (s.setI v).fopc = s.fopc := rfl
@[simp] theorem setI_diag (v : Word) : (s.setI v).diag = s.diag := rfl
@[simp] theorem setI_mem (v : Word) : (s.setI v).mem = s.mem := rfl
@[simp] theorem setI_fb (v : Word) : (s.setI v).fb = s.fb := rfl
@[simp] theorem setI_cfg (v : Word) : (s.setI v).cfg = s.cfg := rfl
@[simp] theorem setI_keyTape (v : Word) : (s.setI v).keyTape = s.keyTape := rfl
@[simp] theorem setI_rndTape (v : Word) : (s.setI v).rndTape = s.rndTape := rfl
@[simp] theorem setI_tickNo (v : Word) : (s.setI v).tickNo = s.tickNo := rfl
@[simp] theorem setI_draws (v : Word) : (s.setI v).draws = s.draws := rfl
@[simp] theorem setI_phase (v : Word) : (s.setI v).phase = s.phase := rfl
@[simp] theorem setI_frames (v : Word) : (s.setI v).frames = s.frames := rfl
@[simp] theorem setI_stage (v : Word) : (s.setI v).stage = s.stage := rfl

/-! ### setDT -/

@[simp] theorem setDT_V (v : Byte) : (s.setDT v).V = s.V := rfl
@[simp] theorem setDT_I (v : Byte) : (s.setDT v).I = s.I := rfl
@[simp] theorem setDT_pc (v : Byte) : (s.setDT v).pc = s.pc := rfl
@[simp] theorem setDT_stack (v : Byte) : (s.setDT v).stack = s.stack := rfl
@[simp] theorem setDT_DT (v : Byte) : (s.setDT v).DT = v := rfl
@[simp] theorem setDT_ST (v : Byte) : (s.setDT v).ST = s.ST := rfl
@[simp] theorem setDT_mode (v : Byte) : (s.setDT v).mode = s.mode := rfl
@[simp] theorem setDT_keydest (v : Byte) : (s.setDT v).keydest = s.keydest := rfl
@[simp] theorem setDT_fcause (v : Byte) : (s.setDT v).fcause = s.fcause := rfl
@[simp] theorem setDT_fpc (v : Byte) : (s.setDT v).fpc = s.fpc := rfl
@[simp] theorem setDT_fopc (v : Byte) : (s.setDT v).fopc = s.fopc := rfl
@[simp] theorem setDT_diag (v : Byte) : (s.setDT v).diag = s.diag := rfl
@[simp] theorem setDT_mem (v : Byte) : (s.setDT v).mem = s.mem := rfl
@[simp] theorem setDT_fb (v : Byte) : (s.setDT v).fb = s.fb := rfl
@[simp] theorem setDT_cfg (v : Byte) : (s.setDT v).cfg = s.cfg := rfl
@[simp] theorem setDT_keyTape (v : Byte) : (s.setDT v).keyTape = s.keyTape := rfl
@[simp] theorem setDT_rndTape (v : Byte) : (s.setDT v).rndTape = s.rndTape := rfl
@[simp] theorem setDT_tickNo (v : Byte) : (s.setDT v).tickNo = s.tickNo := rfl
@[simp] theorem setDT_draws (v : Byte) : (s.setDT v).draws = s.draws := rfl
@[simp] theorem setDT_phase (v : Byte) : (s.setDT v).phase = s.phase := rfl
@[simp] theorem setDT_frames (v : Byte) : (s.setDT v).frames = s.frames := rfl
@[simp] theorem setDT_stage (v : Byte) : (s.setDT v).stage = s.stage := rfl

/-! ### setST -/

@[simp] theorem setST_V (v : Byte) : (s.setST v).V = s.V := rfl
@[simp] theorem setST_I (v : Byte) : (s.setST v).I = s.I := rfl
@[simp] theorem setST_pc (v : Byte) : (s.setST v).pc = s.pc := rfl
@[simp] theorem setST_stack (v : Byte) : (s.setST v).stack = s.stack := rfl
@[simp] theorem setST_DT (v : Byte) : (s.setST v).DT = s.DT := rfl
@[simp] theorem setST_ST (v : Byte) : (s.setST v).ST = v := rfl
@[simp] theorem setST_mode (v : Byte) : (s.setST v).mode = s.mode := rfl
@[simp] theorem setST_keydest (v : Byte) : (s.setST v).keydest = s.keydest := rfl
@[simp] theorem setST_fcause (v : Byte) : (s.setST v).fcause = s.fcause := rfl
@[simp] theorem setST_fpc (v : Byte) : (s.setST v).fpc = s.fpc := rfl
@[simp] theorem setST_fopc (v : Byte) : (s.setST v).fopc = s.fopc := rfl
@[simp] theorem setST_diag (v : Byte) : (s.setST v).diag = s.diag := rfl
@[simp] theorem setST_mem (v : Byte) : (s.setST v).mem = s.mem := rfl
@[simp] theorem setST_fb (v : Byte) : (s.setST v).fb = s.fb := rfl
@[simp] theorem setST_cfg (v : Byte) : (s.setST v).cfg = s.cfg := rfl
@[simp] theorem setST_keyTape (v : Byte) : (s.setST v).keyTape = s.keyTape := rfl
@[simp] theorem setST_rndTape (v : Byte) : (s.setST v).rndTape = s.rndTape := rfl
@[simp] theorem setST_tickNo (v : Byte) : (s.setST v).tickNo = s.tickNo := rfl
@[simp] theorem setST_draws (v : Byte) : (s.setST v).draws = s.draws := rfl
@[simp] theorem setST_phase (v : Byte) : (s.setST v).phase = s.phase := rfl
@[simp] theorem setST_frames (v : Byte) : (s.setST v).frames = s.frames := rfl
@[simp] theorem setST_stage (v : Byte) : (s.setST v).stage = s.stage := rfl

/-! ### push -/

@[simp] theorem push_V (v : Word) : (s.push v).V = s.V := rfl
@[simp] theorem push_I (v : Word) : (s.push v).I = s.I := rfl
@[simp] theorem push_pc (v : Word) : (s.push v).pc = s.pc := rfl
@[simp] theorem push_stack (v : Word) : (s.push v).stack = v :: s.stack := rfl
@[simp] theorem push_DT (v : Word) : (s.push v).DT = s.DT := rfl
@[simp] theorem push_ST (v : Word) : (s.push v).ST = s.ST := rfl
@[simp] theorem push_mode (v : Word) : (s.push v).mode = s.mode := rfl
@[simp] theorem push_keydest (v : Word) : (s.push v).keydest = s.keydest := rfl
@[simp] theorem push_fcause (v : Word) : (s.push v).fcause = s.fcause := rfl
@[simp] theorem push_fpc (v : Word) : (s.push v).fpc = s.fpc := rfl
@[simp] theorem push_fopc (v : Word) : (s.push v).fopc = s.fopc := rfl
@[simp] theorem push_diag (v : Word) : (s.push v).diag = s.diag := rfl
@[simp] theorem push_mem (v : Word) : (s.push v).mem = s.mem := rfl
@[simp] theorem push_fb (v : Word) : (s.push v).fb = s.fb := rfl
@[simp] theorem push_cfg (v : Word) : (s.push v).cfg = s.cfg := rfl
@[simp] theorem push_keyTape (v : Word) : (s.push v).keyTape = s.keyTape := rfl
@[simp] theorem push_rndTape (v : Word) : (s.push v).rndTape = s.rndTape := rfl
@[simp] theorem push_tickNo (v : Word) : (s.push v).tickNo = s.tickNo := rfl
@[simp] theorem push_draws (v : Word) : (s.push v).draws = s.draws := rfl
@[simp] theorem push_phase (v : Word) : (s.push v).phase = s.phase := rfl
@[simp] theorem push_frames (v : Word) : (s.push v).frames = s.frames := rfl
@[simp] theorem push_stage (v : Word) : (s.push v).stage = s.stage := rfl

/-! ### setFb -/

@[simp] theorem setFb_V (f : FrameBuffer) : (s.setFb f).V = s.V := rfl
@[simp] theorem setFb_I (f : FrameBuffer) : (s.setFb f).I = s.I := rfl
@[simp] theorem setFb_pc (f : FrameBuffer) : (s.setFb f).pc = s.pc := rfl
@[simp] theorem setFb_stack (f : FrameBuffer) : (s.setFb f).stack = s.stack := rfl
@[simp] theorem setFb_DT (f : FrameBuffer) : (s.setFb f).DT = s.DT := rfl
@[simp] theorem setFb_ST (f : FrameBuffer) : (s.setFb f).ST = s.ST := rfl
@[simp] theorem setFb_mode (f : FrameBuffer) : (s.setFb f).mode = s.mode := rfl
@[simp] theorem setFb_keydest (f : FrameBuffer) : (s.setFb f).keydest = s.keydest := rfl
@[simp] theorem setFb_fcause (f : FrameBuffer) : (s.setFb f).fcause = s.fcause := rfl
@[simp] theorem setFb_fpc (f : FrameBuffer) : (s.setFb f).fpc = s.fpc := rfl
@[simp] theorem setFb_fopc (f : FrameBuffer) : (s.setFb f).fopc = s.fopc := rfl
@[simp] theorem setFb_diag (f : FrameBuffer) : (s.setFb f).diag = s.diag := rfl
@[simp] theorem setFb_mem (f : FrameBuffer) : (s.setFb f).mem = s.mem := rfl
@[simp] theorem setFb_fb (f : FrameBuffer) : (s.setFb f).fb = f := rfl
@[simp] theorem setFb_cfg (f : FrameBuffer) : (s.setFb f).cfg = s.cfg := rfl
@[simp] theorem setFb_keyTape (f : FrameBuffer) : (s.setFb f).keyTape = s.keyTape := rfl
@[simp] theorem setFb_rndTape (f : FrameBuffer) : (s.setFb f).rndTape = s.rndTape := rfl
@[simp] theorem setFb_tickNo (f : FrameBuffer) : (s.setFb f).tickNo = s.tickNo := rfl
@[simp] theorem setFb_draws (f : FrameBuffer) : (s.setFb f).draws = s.draws := rfl
@[simp] theorem setFb_phase (f : FrameBuffer) : (s.setFb f).phase = s.phase := rfl
@[simp] theorem setFb_frames (f : FrameBuffer) : (s.setFb f).frames = s.frames := rfl
@[simp] theorem setFb_stage (f : FrameBuffer) : (s.setFb f).stage = s.stage := rfl

/-! ### consumeRnd -/

@[simp] theorem consumeRnd_V : (s.consumeRnd).V = s.V := rfl
@[simp] theorem consumeRnd_I : (s.consumeRnd).I = s.I := rfl
@[simp] theorem consumeRnd_pc : (s.consumeRnd).pc = s.pc := rfl
@[simp] theorem consumeRnd_stack : (s.consumeRnd).stack = s.stack := rfl
@[simp] theorem consumeRnd_DT : (s.consumeRnd).DT = s.DT := rfl
@[simp] theorem consumeRnd_ST : (s.consumeRnd).ST = s.ST := rfl
@[simp] theorem consumeRnd_mode : (s.consumeRnd).mode = s.mode := rfl
@[simp] theorem consumeRnd_keydest : (s.consumeRnd).keydest = s.keydest := rfl
@[simp] theorem consumeRnd_fcause : (s.consumeRnd).fcause = s.fcause := rfl
@[simp] theorem consumeRnd_fpc : (s.consumeRnd).fpc = s.fpc := rfl
@[simp] theorem consumeRnd_fopc : (s.consumeRnd).fopc = s.fopc := rfl
@[simp] theorem consumeRnd_diag : (s.consumeRnd).diag = s.diag := rfl
@[simp] theorem consumeRnd_mem : (s.consumeRnd).mem = s.mem := rfl
@[simp] theorem consumeRnd_fb : (s.consumeRnd).fb = s.fb := rfl
@[simp] theorem consumeRnd_cfg : (s.consumeRnd).cfg = s.cfg := rfl
@[simp] theorem consumeRnd_keyTape : (s.consumeRnd).keyTape = s.keyTape := rfl
@[simp] theorem consumeRnd_rndTape : (s.consumeRnd).rndTape = s.rndTape.tail := rfl
@[simp] theorem consumeRnd_tickNo : (s.consumeRnd).tickNo = s.tickNo := rfl
@[simp] theorem consumeRnd_draws : (s.consumeRnd).draws = s.draws + 1 := rfl
@[simp] theorem consumeRnd_phase : (s.consumeRnd).phase = s.phase := rfl
@[simp] theorem consumeRnd_frames : (s.consumeRnd).frames = s.frames := rfl
@[simp] theorem consumeRnd_stage : (s.consumeRnd).stage = s.stage := rfl

/-! ### poke -/

@[simp] theorem poke_V (a : Nat) (v : Byte) : (s.poke a v).V = s.V := rfl
@[simp] theorem poke_I (a : Nat) (v : Byte) : (s.poke a v).I = s.I := rfl
@[simp] theorem poke_pc (a : Nat) (v : Byte) : (s.poke a v).pc = s.pc := rfl
@[simp] theorem poke_stack (a : Nat) (v : Byte) : (s.poke a v).stack = s.stack := rfl
@[simp] theorem poke_DT (a : Nat) (v : Byte) : (s.poke a v).DT = s.DT := rfl
@[simp] theorem poke_ST (a : Nat) (v : Byte) : (s.poke a v).ST = s.ST := rfl
@[simp] theorem poke_mode (a : Nat) (v : Byte) : (s.poke a v).mode = s.mode := rfl
@[simp] theorem poke_keydest (a : Nat) (v : Byte) : (s.poke a v).keydest = s.keydest := rfl
@[simp] theorem poke_fcause (a : Nat) (v : Byte) : (s.poke a v).fcause = s.fcause := rfl
@[simp] theorem poke_fpc (a : Nat) (v : Byte) : (s.poke a v).fpc = s.fpc := rfl
@[simp] theorem poke_fopc (a : Nat) (v : Byte) : (s.poke a v).fopc = s.fopc := rfl
@[simp] theorem poke_diag (a : Nat) (v : Byte) : (s.poke a v).diag = s.diag := rfl
@[simp] theorem poke_mem (a : Nat) (v : Byte) : (s.poke a v).mem = s.mem.write (resetByte s.cfg a) a v := rfl
@[simp] theorem poke_fb (a : Nat) (v : Byte) : (s.poke a v).fb = s.fb := rfl
@[simp] theorem poke_cfg (a : Nat) (v : Byte) : (s.poke a v).cfg = s.cfg := rfl
@[simp] theorem poke_keyTape (a : Nat) (v : Byte) : (s.poke a v).keyTape = s.keyTape := rfl
@[simp] theorem poke_rndTape (a : Nat) (v : Byte) : (s.poke a v).rndTape = s.rndTape := rfl
@[simp] theorem poke_tickNo (a : Nat) (v : Byte) : (s.poke a v).tickNo = s.tickNo := rfl
@[simp] theorem poke_draws (a : Nat) (v : Byte) : (s.poke a v).draws = s.draws := rfl
@[simp] theorem poke_phase (a : Nat) (v : Byte) : (s.poke a v).phase = s.phase := rfl
@[simp] theorem poke_frames (a : Nat) (v : Byte) : (s.poke a v).frames = s.frames := rfl
@[simp] theorem poke_stage (a : Nat) (v : Byte) : (s.poke a v).stage = s.stage := rfl

/-! ### takeFatal -/

@[simp] theorem takeFatal_V (r : Raise) (w : Word) : (s.takeFatal r w).V = s.V := rfl
@[simp] theorem takeFatal_I (r : Raise) (w : Word) : (s.takeFatal r w).I = s.I := rfl
@[simp] theorem takeFatal_pc (r : Raise) (w : Word) : (s.takeFatal r w).pc = s.pc := rfl
@[simp] theorem takeFatal_stack (r : Raise) (w : Word) : (s.takeFatal r w).stack = s.stack := rfl
@[simp] theorem takeFatal_DT (r : Raise) (w : Word) : (s.takeFatal r w).DT = s.DT := rfl
@[simp] theorem takeFatal_ST (r : Raise) (w : Word) : (s.takeFatal r w).ST = s.ST := rfl
@[simp] theorem takeFatal_mode (r : Raise) (w : Word) : (s.takeFatal r w).mode = .faulted := rfl
@[simp] theorem takeFatal_keydest (r : Raise) (w : Word) : (s.takeFatal r w).keydest = s.keydest := rfl
@[simp] theorem takeFatal_fcause (r : Raise) (w : Word) : (s.takeFatal r w).fcause = r.cause := rfl
@[simp] theorem takeFatal_fpc (r : Raise) (w : Word) : (s.takeFatal r w).fpc = s.pc := rfl
@[simp] theorem takeFatal_fopc (r : Raise) (w : Word) : (s.takeFatal r w).fopc = w := rfl
@[simp] theorem takeFatal_diag (r : Raise) (w : Word) : (s.takeFatal r w).diag = s.diag := rfl
@[simp] theorem takeFatal_mem (r : Raise) (w : Word) : (s.takeFatal r w).mem = s.mem := rfl
@[simp] theorem takeFatal_fb (r : Raise) (w : Word) : (s.takeFatal r w).fb = s.fb := rfl
@[simp] theorem takeFatal_cfg (r : Raise) (w : Word) : (s.takeFatal r w).cfg = s.cfg := rfl
@[simp] theorem takeFatal_keyTape (r : Raise) (w : Word) : (s.takeFatal r w).keyTape = s.keyTape := rfl
@[simp] theorem takeFatal_rndTape (r : Raise) (w : Word) : (s.takeFatal r w).rndTape = s.rndTape := rfl
@[simp] theorem takeFatal_tickNo (r : Raise) (w : Word) : (s.takeFatal r w).tickNo = s.tickNo := rfl
@[simp] theorem takeFatal_draws (r : Raise) (w : Word) : (s.takeFatal r w).draws = s.draws := rfl
@[simp] theorem takeFatal_phase (r : Raise) (w : Word) : (s.takeFatal r w).phase = s.phase := rfl
@[simp] theorem takeFatal_frames (r : Raise) (w : Word) : (s.takeFatal r w).frames = s.frames := rfl
@[simp] theorem takeFatal_stage (r : Raise) (w : Word) : (s.takeFatal r w).stage = s.stage := rfl

/-! ### reportDecodeError -/

@[simp] theorem reportDecodeError_V (w : Word) : (s.reportDecodeError w).V = s.V := rfl
@[simp] theorem reportDecodeError_I (w : Word) : (s.reportDecodeError w).I = s.I := rfl
@[simp] theorem reportDecodeError_pc (w : Word) : (s.reportDecodeError w).pc = s.pc + 2 := rfl
@[simp] theorem reportDecodeError_stack (w : Word) : (s.reportDecodeError w).stack = s.stack := rfl
@[simp] theorem reportDecodeError_DT (w : Word) : (s.reportDecodeError w).DT = s.DT := rfl
@[simp] theorem reportDecodeError_ST (w : Word) : (s.reportDecodeError w).ST = s.ST := rfl
@[simp] theorem reportDecodeError_mode (w : Word) : (s.reportDecodeError w).mode = s.mode := rfl
@[simp] theorem reportDecodeError_keydest (w : Word) : (s.reportDecodeError w).keydest = s.keydest := rfl
@[simp] theorem reportDecodeError_fcause (w : Word) : (s.reportDecodeError w).fcause = s.fcause := rfl
@[simp] theorem reportDecodeError_fpc (w : Word) : (s.reportDecodeError w).fpc = s.fpc := rfl
@[simp] theorem reportDecodeError_fopc (w : Word) : (s.reportDecodeError w).fopc = s.fopc := rfl
@[simp] theorem reportDecodeError_diag (w : Word) : (s.reportDecodeError w).diag = s.diag ++ [⟨s.pc, w⟩] := rfl
@[simp] theorem reportDecodeError_mem (w : Word) : (s.reportDecodeError w).mem = s.mem := rfl
@[simp] theorem reportDecodeError_fb (w : Word) : (s.reportDecodeError w).fb = s.fb := rfl
@[simp] theorem reportDecodeError_cfg (w : Word) : (s.reportDecodeError w).cfg = s.cfg := rfl
@[simp] theorem reportDecodeError_keyTape (w : Word) : (s.reportDecodeError w).keyTape = s.keyTape := rfl
@[simp] theorem reportDecodeError_rndTape (w : Word) : (s.reportDecodeError w).rndTape = s.rndTape := rfl
@[simp] theorem reportDecodeError_tickNo (w : Word) : (s.reportDecodeError w).tickNo = s.tickNo := rfl
@[simp] theorem reportDecodeError_draws (w : Word) : (s.reportDecodeError w).draws = s.draws := rfl
@[simp] theorem reportDecodeError_phase (w : Word) : (s.reportDecodeError w).phase = s.phase := rfl
@[simp] theorem reportDecodeError_frames (w : Word) : (s.reportDecodeError w).frames = s.frames := rfl
@[simp] theorem reportDecodeError_stage (w : Word) : (s.reportDecodeError w).stage = s.stage := rfl

/-! ### block -/

@[simp] theorem block_V (x : Reg) : (s.block x).V = s.V := rfl
@[simp] theorem block_I (x : Reg) : (s.block x).I = s.I := rfl
@[simp] theorem block_pc (x : Reg) : (s.block x).pc = s.pc := rfl
@[simp] theorem block_stack (x : Reg) : (s.block x).stack = s.stack := rfl
@[simp] theorem block_DT (x : Reg) : (s.block x).DT = s.DT := rfl
@[simp] theorem block_ST (x : Reg) : (s.block x).ST = s.ST := rfl
@[simp] theorem block_mode (x : Reg) : (s.block x).mode = .blockedOnKey := rfl
@[simp] theorem block_keydest (x : Reg) : (s.block x).keydest = x := rfl
@[simp] theorem block_fcause (x : Reg) : (s.block x).fcause = s.fcause := rfl
@[simp] theorem block_fpc (x : Reg) : (s.block x).fpc = s.fpc := rfl
@[simp] theorem block_fopc (x : Reg) : (s.block x).fopc = s.fopc := rfl
@[simp] theorem block_diag (x : Reg) : (s.block x).diag = s.diag := rfl
@[simp] theorem block_mem (x : Reg) : (s.block x).mem = s.mem := rfl
@[simp] theorem block_fb (x : Reg) : (s.block x).fb = s.fb := rfl
@[simp] theorem block_cfg (x : Reg) : (s.block x).cfg = s.cfg := rfl
@[simp] theorem block_keyTape (x : Reg) : (s.block x).keyTape = s.keyTape := rfl
@[simp] theorem block_rndTape (x : Reg) : (s.block x).rndTape = s.rndTape := rfl
@[simp] theorem block_tickNo (x : Reg) : (s.block x).tickNo = s.tickNo := rfl
@[simp] theorem block_draws (x : Reg) : (s.block x).draws = s.draws := rfl
@[simp] theorem block_phase (x : Reg) : (s.block x).phase = s.phase := rfl
@[simp] theorem block_frames (x : Reg) : (s.block x).frames = s.frames := rfl
@[simp] theorem block_stage (x : Reg) : (s.block x).stage = s.stage := rfl

/-! ### wake -/

@[simp] theorem wake_V (k : Nat) : (s.wake k).V = s.V.set s.keydest (BitVec.ofNat 8 k) := rfl
@[simp] theorem wake_I (k : Nat) : (s.wake k).I = s.I := rfl
@[simp] theorem wake_pc (k : Nat) : (s.wake k).pc = s.pc := rfl
@[simp] theorem wake_stack (k : Nat) : (s.wake k).stack = s.stack := rfl
@[simp] theorem wake_DT (k : Nat) : (s.wake k).DT = s.DT := rfl
@[simp] theorem wake_ST (k : Nat) : (s.wake k).ST = s.ST := rfl
@[simp] theorem wake_mode (k : Nat) : (s.wake k).mode = .running := rfl
@[simp] theorem wake_keydest (k : Nat) : (s.wake k).keydest = s.keydest := rfl
@[simp] theorem wake_fcause (k : Nat) : (s.wake k).fcause = s.fcause := rfl
@[simp] theorem wake_fpc (k : Nat) : (s.wake k).fpc = s.fpc := rfl
@[simp] theorem wake_fopc (k : Nat) : (s.wake k).fopc = s.fopc := rfl
@[simp] theorem wake_diag (k : Nat) : (s.wake k).diag = s.diag := rfl
@[simp] theorem wake_mem (k : Nat) : (s.wake k).mem = s.mem := rfl
@[simp] theorem wake_fb (k : Nat) : (s.wake k).fb = s.fb := rfl
@[simp] theorem wake_cfg (k : Nat) : (s.wake k).cfg = s.cfg := rfl
@[simp] theorem wake_keyTape (k : Nat) : (s.wake k).keyTape = s.keyTape := rfl
@[simp] theorem wake_rndTape (k : Nat) : (s.wake k).rndTape = s.rndTape := rfl
@[simp] theorem wake_tickNo (k : Nat) : (s.wake k).tickNo = s.tickNo := rfl
@[simp] theorem wake_draws (k : Nat) : (s.wake k).draws = s.draws := rfl
@[simp] theorem wake_phase (k : Nat) : (s.wake k).phase = s.phase := rfl
@[simp] theorem wake_frames (k : Nat) : (s.wake k).frames = s.frames := rfl
@[simp] theorem wake_stage (k : Nat) : (s.wake k).stage = s.stage := rfl

/-! ### Repeated updates change what the single ones change -/

@[simp] theorem pokeAll_V (base : Nat) (bs : List Byte) : (s.pokeAll base bs).V = s.V := by
  induction bs generalizing s base with
  | nil => rfl
  | cons b bs ih => simp [pokeAll, ih]
@[simp] theorem pokeAll_I (base : Nat) (bs : List Byte) : (s.pokeAll base bs).I = s.I := by
  induction bs generalizing s base with
  | nil => rfl
  | cons b bs ih => simp [pokeAll, ih]
@[simp] theorem pokeAll_pc (base : Nat) (bs : List Byte) : (s.pokeAll base bs).pc = s.pc := by
  induction bs generalizing s base with
  | nil => rfl
  | cons b bs ih => simp [pokeAll, ih]
@[simp] theorem pokeAll_stack (base : Nat) (bs : List Byte) : (s.pokeAll base bs).stack = s.stack := by
  induction bs generalizing s base with
  | nil => rfl
  | cons b bs ih => simp [pokeAll, ih]
@[simp] theorem pokeAll_DT (base : Nat) (bs : List Byte) : (s.pokeAll base bs).DT = s.DT := by
  induction bs generalizing s base with
  | nil => rfl
  | cons b bs ih => simp [pokeAll, ih]
@[simp] theorem pokeAll_ST (base : Nat) (bs : List Byte) : (s.pokeAll base bs).ST = s.ST := by
  induction bs generalizing s base with
  | nil => rfl
  | cons b bs ih => simp [pokeAll, ih]
@[simp] theorem pokeAll_mode (base : Nat) (bs : List Byte) : (s.pokeAll base bs).mode = s.mode := by
  induction bs generalizing s base with
  | nil => rfl
  | cons b bs ih => simp [pokeAll, ih]
@[simp] theorem pokeAll_keydest (base : Nat) (bs : List Byte) : (s.pokeAll base bs).keydest = s.keydest := by
  induction bs generalizing s base with
  | nil => rfl
  | cons b bs ih => simp [pokeAll, ih]
@[simp] theorem pokeAll_fcause (base : Nat) (bs : List Byte) : (s.pokeAll base bs).fcause = s.fcause := by
  induction bs generalizing s base with
  | nil => rfl
  | cons b bs ih => simp [pokeAll, ih]
@[simp] theorem pokeAll_fpc (base : Nat) (bs : List Byte) : (s.pokeAll base bs).fpc = s.fpc := by
  induction bs generalizing s base with
  | nil => rfl
  | cons b bs ih => simp [pokeAll, ih]
@[simp] theorem pokeAll_fopc (base : Nat) (bs : List Byte) : (s.pokeAll base bs).fopc = s.fopc := by
  induction bs generalizing s base with
  | nil => rfl
  | cons b bs ih => simp [pokeAll, ih]
@[simp] theorem pokeAll_diag (base : Nat) (bs : List Byte) : (s.pokeAll base bs).diag = s.diag := by
  induction bs generalizing s base with
  | nil => rfl
  | cons b bs ih => simp [pokeAll, ih]
@[simp] theorem pokeAll_fb (base : Nat) (bs : List Byte) : (s.pokeAll base bs).fb = s.fb := by
  induction bs generalizing s base with
  | nil => rfl
  | cons b bs ih => simp [pokeAll, ih]
@[simp] theorem pokeAll_cfg (base : Nat) (bs : List Byte) : (s.pokeAll base bs).cfg = s.cfg := by
  induction bs generalizing s base with
  | nil => rfl
  | cons b bs ih => simp [pokeAll, ih]
@[simp] theorem pokeAll_keyTape (base : Nat) (bs : List Byte) : (s.pokeAll base bs).keyTape = s.keyTape := by
  induction bs generalizing s base with
  | nil => rfl
  | cons b bs ih => simp [pokeAll, ih]
@[simp] theorem pokeAll_rndTape (base : Nat) (bs : List Byte) : (s.pokeAll base bs).rndTape = s.rndTape := by
  induction bs generalizing s base with
  | nil => rfl
  | cons b bs ih => simp [pokeAll, ih]
@[simp] theorem pokeAll_tickNo (base : Nat) (bs : List Byte) : (s.pokeAll base bs).tickNo = s.tickNo := by
  induction bs generalizing s base with
  | nil => rfl
  | cons b bs ih => simp [pokeAll, ih]
@[simp] theorem pokeAll_draws (base : Nat) (bs : List Byte) : (s.pokeAll base bs).draws = s.draws := by
  induction bs generalizing s base with
  | nil => rfl
  | cons b bs ih => simp [pokeAll, ih]
@[simp] theorem pokeAll_phase (base : Nat) (bs : List Byte) : (s.pokeAll base bs).phase = s.phase := by
  induction bs generalizing s base with
  | nil => rfl
  | cons b bs ih => simp [pokeAll, ih]
@[simp] theorem pokeAll_frames (base : Nat) (bs : List Byte) : (s.pokeAll base bs).frames = s.frames := by
  induction bs generalizing s base with
  | nil => rfl
  | cons b bs ih => simp [pokeAll, ih]
@[simp] theorem pokeAll_stage (base : Nat) (bs : List Byte) : (s.pokeAll base bs).stage = s.stage := by
  induction bs generalizing s base with
  | nil => rfl
  | cons b bs ih => simp [pokeAll, ih]
@[simp] theorem setRegsFrom_I (r : Nat) (bs : List Byte) : (s.setRegsFrom r bs).I = s.I := by
  induction bs generalizing s r with
  | nil => rfl
  | cons b bs ih => simp [setRegsFrom, ih]
@[simp] theorem setRegsFrom_pc (r : Nat) (bs : List Byte) : (s.setRegsFrom r bs).pc = s.pc := by
  induction bs generalizing s r with
  | nil => rfl
  | cons b bs ih => simp [setRegsFrom, ih]
@[simp] theorem setRegsFrom_stack (r : Nat) (bs : List Byte) : (s.setRegsFrom r bs).stack = s.stack := by
  induction bs generalizing s r with
  | nil => rfl
  | cons b bs ih => simp [setRegsFrom, ih]
@[simp] theorem setRegsFrom_DT (r : Nat) (bs : List Byte) : (s.setRegsFrom r bs).DT = s.DT := by
  induction bs generalizing s r with
  | nil => rfl
  | cons b bs ih => simp [setRegsFrom, ih]
@[simp] theorem setRegsFrom_ST (r : Nat) (bs : List Byte) : (s.setRegsFrom r bs).ST = s.ST := by
  induction bs generalizing s r with
  | nil => rfl
  | cons b bs ih => simp [setRegsFrom, ih]
@[simp] theorem setRegsFrom_mode (r : Nat) (bs : List Byte) : (s.setRegsFrom r bs).mode = s.mode := by
  induction bs generalizing s r with
  | nil => rfl
  | cons b bs ih => simp [setRegsFrom, ih]
@[simp] theorem setRegsFrom_keydest (r : Nat) (bs : List Byte) : (s.setRegsFrom r bs).keydest = s.keydest := by
  induction bs generalizing s r with
  | nil => rfl
  | cons b bs ih => simp [setRegsFrom, ih]
@[simp] theorem setRegsFrom_fcause (r : Nat) (bs : List Byte) : (s.setRegsFrom r bs).fcause = s.fcause := by
  induction bs generalizing s r with
  | nil => rfl
  | cons b bs ih => simp [setRegsFrom, ih]
@[simp] theorem setRegsFrom_fpc (r : Nat) (bs : List Byte) : (s.setRegsFrom r bs).fpc = s.fpc := by
  induction bs generalizing s r with
  | nil => rfl
  | cons b bs ih => simp [setRegsFrom, ih]
@[simp] theorem setRegsFrom_fopc (r : Nat) (bs : List Byte) : (s.setRegsFrom r bs).fopc = s.fopc := by
  induction bs generalizing s r with
  | nil => rfl
  | cons b bs ih => simp [setRegsFrom, ih]
@[simp] theorem setRegsFrom_diag (r : Nat) (bs : List Byte) : (s.setRegsFrom r bs).diag = s.diag := by
  induction bs generalizing s r with
  | nil => rfl
  | cons b bs ih => simp [setRegsFrom, ih]
@[simp] theorem setRegsFrom_mem (r : Nat) (bs : List Byte) : (s.setRegsFrom r bs).mem = s.mem := by
  induction bs generalizing s r with
  | nil => rfl
  | cons b bs ih => simp [setRegsFrom, ih]
@[simp] theorem setRegsFrom_fb (r : Nat) (bs : List Byte) : (s.setRegsFrom r bs).fb = s.fb := by
  induction bs generalizing s r with
  | nil => rfl
  | cons b bs ih => simp [setRegsFrom, ih]
@[simp] theorem setRegsFrom_cfg (r : Nat) (bs : List Byte) : (s.setRegsFrom r bs).cfg = s.cfg := by
  induction bs generalizing s r with
  | nil => rfl
  | cons b bs ih => simp [setRegsFrom, ih]
@[simp] theorem setRegsFrom_keyTape (r : Nat) (bs : List Byte) : (s.setRegsFrom r bs).keyTape = s.keyTape := by
  induction bs generalizing s r with
  | nil => rfl
  | cons b bs ih => simp [setRegsFrom, ih]
@[simp] theorem setRegsFrom_rndTape (r : Nat) (bs : List Byte) : (s.setRegsFrom r bs).rndTape = s.rndTape := by
  induction bs generalizing s r with
  | nil => rfl
  | cons b bs ih => simp [setRegsFrom, ih]
@[simp] theorem setRegsFrom_tickNo (r : Nat) (bs : List Byte) : (s.setRegsFrom r bs).tickNo = s.tickNo := by
  induction bs generalizing s r with
  | nil => rfl
  | cons b bs ih => simp [setRegsFrom, ih]
@[simp] theorem setRegsFrom_draws (r : Nat) (bs : List Byte) : (s.setRegsFrom r bs).draws = s.draws := by
  induction bs generalizing s r with
  | nil => rfl
  | cons b bs ih => simp [setRegsFrom, ih]
@[simp] theorem setRegsFrom_phase (r : Nat) (bs : List Byte) : (s.setRegsFrom r bs).phase = s.phase := by
  induction bs generalizing s r with
  | nil => rfl
  | cons b bs ih => simp [setRegsFrom, ih]
@[simp] theorem setRegsFrom_frames (r : Nat) (bs : List Byte) : (s.setRegsFrom r bs).frames = s.frames := by
  induction bs generalizing s r with
  | nil => rfl
  | cons b bs ih => simp [setRegsFrom, ih]
@[simp] theorem setRegsFrom_stage (r : Nat) (bs : List Byte) : (s.setRegsFrom r bs).stage = s.stage := by
  induction bs generalizing s r with
  | nil => rfl
  | cons b bs ih => simp [setRegsFrom, ih]

/-! ### The end of a sub-step and of a tick -/

@[simp] theorem timerUpdate_V : s.timerUpdate.V = s.V := rfl
@[simp] theorem timerUpdate_I : s.timerUpdate.I = s.I := rfl
@[simp] theorem timerUpdate_pc : s.timerUpdate.pc = s.pc := rfl
@[simp] theorem timerUpdate_stack : s.timerUpdate.stack = s.stack := rfl
@[simp] theorem timerUpdate_DT : s.timerUpdate.DT = if s.mode = .running then timerDecay s.DT else s.DT := rfl
@[simp] theorem timerUpdate_ST : s.timerUpdate.ST = if s.mode = .running then timerDecay s.ST else s.ST := rfl
@[simp] theorem timerUpdate_mode : s.timerUpdate.mode = s.mode := rfl
@[simp] theorem timerUpdate_keydest : s.timerUpdate.keydest = s.keydest := rfl
@[simp] theorem timerUpdate_fcause : s.timerUpdate.fcause = s.fcause := rfl
@[simp] theorem timerUpdate_fpc : s.timerUpdate.fpc = s.fpc := rfl
@[simp] theorem timerUpdate_fopc : s.timerUpdate.fopc = s.fopc := rfl
@[simp] theorem timerUpdate_diag : s.timerUpdate.diag = s.diag := rfl
@[simp] theorem timerUpdate_mem : s.timerUpdate.mem = s.mem := rfl
@[simp] theorem timerUpdate_fb : s.timerUpdate.fb = s.fb := rfl
@[simp] theorem timerUpdate_cfg : s.timerUpdate.cfg = s.cfg := rfl
@[simp] theorem timerUpdate_keyTape : s.timerUpdate.keyTape = s.keyTape := rfl
@[simp] theorem timerUpdate_rndTape : s.timerUpdate.rndTape = s.rndTape := rfl
@[simp] theorem timerUpdate_tickNo : s.timerUpdate.tickNo = s.tickNo := rfl
@[simp] theorem timerUpdate_draws : s.timerUpdate.draws = s.draws := rfl
@[simp] theorem timerUpdate_phase : s.timerUpdate.phase = s.phase := rfl
@[simp] theorem timerUpdate_frames : s.timerUpdate.frames = s.frames := rfl
@[simp] theorem timerUpdate_stage : s.timerUpdate.stage = s.stage := rfl
@[simp] theorem endTick_V : s.endTick.V = s.V := rfl
@[simp] theorem endTick_I : s.endTick.I = s.I := rfl
@[simp] theorem endTick_pc : s.endTick.pc = s.pc := rfl
@[simp] theorem endTick_stack : s.endTick.stack = s.stack := rfl
@[simp] theorem endTick_DT : s.endTick.DT = s.timerUpdate.DT := rfl
@[simp] theorem endTick_ST : s.endTick.ST = s.timerUpdate.ST := rfl
@[simp] theorem endTick_mode : s.endTick.mode = s.mode := rfl
@[simp] theorem endTick_keydest : s.endTick.keydest = s.keydest := rfl
@[simp] theorem endTick_fcause : s.endTick.fcause = s.fcause := rfl
@[simp] theorem endTick_fpc : s.endTick.fpc = s.fpc := rfl
@[simp] theorem endTick_fopc : s.endTick.fopc = s.fopc := rfl
@[simp] theorem endTick_diag : s.endTick.diag = s.diag := rfl
@[simp] theorem endTick_mem : s.endTick.mem = s.mem := rfl
@[simp] theorem endTick_fb : s.endTick.fb = s.fb := rfl
@[simp] theorem endTick_cfg : s.endTick.cfg = s.cfg := rfl
@[simp] theorem endTick_keyTape : s.endTick.keyTape = s.keyTape.tail := rfl
@[simp] theorem endTick_rndTape : s.endTick.rndTape = s.rndTape := rfl
@[simp] theorem endTick_tickNo : s.endTick.tickNo = s.tickNo + 1 := rfl
@[simp] theorem endTick_draws : s.endTick.draws = s.draws := rfl
@[simp] theorem endTick_phase : s.endTick.phase = 0 := rfl
@[simp] theorem endTick_frames : s.endTick.frames = s.frames + 1 := rfl
@[simp] theorem endTick_stage : s.endTick.stage = .ticking := rfl
@[simp] theorem afterSubStep_V : s.afterSubStep.V = s.V := by unfold afterSubStep; split <;> (try split) <;> simp
@[simp] theorem afterSubStep_I : s.afterSubStep.I = s.I := by unfold afterSubStep; split <;> (try split) <;> simp
@[simp] theorem afterSubStep_pc : s.afterSubStep.pc = s.pc := by unfold afterSubStep; split <;> (try split) <;> simp
@[simp] theorem afterSubStep_stack : s.afterSubStep.stack = s.stack := by unfold afterSubStep; split <;> (try split) <;> simp
@[simp] theorem afterSubStep_mode : s.afterSubStep.mode = s.mode := by unfold afterSubStep; split <;> (try split) <;> simp
@[simp] theorem afterSubStep_keydest : s.afterSubStep.keydest = s.keydest := by unfold afterSubStep; split <;> (try split) <;> simp
@[simp] theorem afterSubStep_fcause : s.afterSubStep.fcause = s.fcause := by unfold afterSubStep; split <;> (try split) <;> simp
@[simp] theorem afterSubStep_fpc : s.afterSubStep.fpc = s.fpc := by unfold afterSubStep; split <;> (try split) <;> simp
@[simp] theorem afterSubStep_fopc : s.afterSubStep.fopc = s.fopc := by unfold afterSubStep; split <;> (try split) <;> simp
@[simp] theorem afterSubStep_diag : s.afterSubStep.diag = s.diag := by unfold afterSubStep; split <;> (try split) <;> simp
@[simp] theorem afterSubStep_mem : s.afterSubStep.mem = s.mem := by unfold afterSubStep; split <;> (try split) <;> simp
@[simp] theorem afterSubStep_fb : s.afterSubStep.fb = s.fb := by unfold afterSubStep; split <;> (try split) <;> simp
@[simp] theorem afterSubStep_cfg : s.afterSubStep.cfg = s.cfg := by unfold afterSubStep; split <;> (try split) <;> simp
@[simp] theorem afterSubStep_rndTape : s.afterSubStep.rndTape = s.rndTape := by unfold afterSubStep; split <;> (try split) <;> simp
@[simp] theorem afterSubStep_draws : s.afterSubStep.draws = s.draws := by unfold afterSubStep; split <;> (try split) <;> simp

end Sys2Proof.Machine.State
end

