-- ==== Sys2Proof/Laws/Memory.lean ====
section
/-! SUPPORT. The laws of memory: read after write, every other byte left alone, the canonical form kept, blocks. -/

namespace Sys2Proof.Machine

namespace Memory

theorem mem_unlist {m : Memory} {a : Nat} {c : Host.Cell} : c ∈ m.unlist a ↔ c ∈ m ∧ c.1 ≠ a := by
  simp [unlist]

theorem mem_enlist {m : Memory} {a : Nat} {v : Byte} {c : Host.Cell} :
    c ∈ m.enlist a v ↔ c = (a, v) ∨ c ∈ m := by
  induction m with
  | nil => simp [enlist]
  | cons d m ih =>
    obtain ⟨b, w⟩ := d
    by_cases h : a < b
    · simp [enlist, h]
    · simp only [enlist, h, if_false, List.mem_cons, ih]
      tauto

theorem read_unlist_ne (d : Byte) {a b : Nat} (m : Memory) (h : b ≠ a) : (m.unlist a).read d b = m.read d b := by
  induction m with
  | nil => rfl
  | cons c m ih =>
    obtain ⟨k, w⟩ := c
    by_cases hk : k = a
    · subst hk
      simpa [unlist, read, h] using ih
    · simp only [unlist] at ih
      simp [unlist, read, hk, ih]

theorem read_unlist_self (d : Byte) (a : Nat) (m : Memory) : (m.unlist a).read d a = d := by
  induction m with
  | nil => rfl
  | cons c m ih =>
    obtain ⟨k, w⟩ := c
    by_cases hk : k = a
    · simpa [unlist, hk] using ih
    · simp only [unlist] at ih
      simp [unlist, read, hk, Ne.symm hk, ih]

theorem read_enlist (d : Byte) (a b : Nat) (v : Byte) (m : Memory) (hm : ∀ c ∈ m, c.1 ≠ a) :
    (m.enlist a v).read d b = if b = a then v else m.read d b := by
  induction m with
  | nil => simp [enlist, read]
  | cons c m ih =>
    obtain ⟨k, w⟩ := c
    have hk : k ≠ a := hm (k, w) (by simp)
    have ih := ih (fun c hc => hm c (by simp [hc]))
    by_cases h : a < k
    · simp [enlist, h, read]
    · simp only [enlist, h, if_false, read, ih]
      by_cases hb : b = k
      · subst hb; simp [hk]
      · simp [hb]

/-- Read after write, at every address. -/
theorem read_write (d d' : Byte) (a b : Nat) (v : Byte) (m : Memory) (hd : b = a → d' = d) :
    (m.write d a v).read d' b = if b = a then v else m.read d' b := by
  unfold write
  split
  · by_cases h : b = a
    · subst h; simp [read_unlist_self, *]
    · simp [read_unlist_ne, h]
  · rw [read_enlist _ _ _ _ _ (fun c hc => (mem_unlist.1 hc).2)]
    by_cases h : b = a
    · simp [h]
    · simp [h, read_unlist_ne]

theorem sorted_cons {c : Host.Cell} {m : Memory} :
    Memory.sorted (c :: m) = true ↔ (∀ e ∈ m, c.1 < e.1) ∧ m.sorted = true := by
  obtain ⟨a, v⟩ := c
  simp [sorted]

theorem sorted_unlist {m : Memory} (a : Nat) (h : m.sorted = true) : (m.unlist a).sorted = true := by
  induction m with
  | nil => rfl
  | cons c m ih =>
    rw [sorted_cons] at h
    by_cases hc : c.1 = a
    · simpa [unlist, hc] using ih h.2
    · have : Memory.unlist a (c :: m) = c :: Memory.unlist a m := by simp [unlist, hc]
      rw [this, sorted_cons]
      exact ⟨fun e he => h.1 e (mem_unlist.1 he).1, ih h.2⟩

theorem sorted_enlist {m : Memory} (a : Nat) (v : Byte) (h : m.sorted = true) (hm : ∀ c ∈ m, c.1 ≠ a) :
    (m.enlist a v).sorted = true := by
  induction m with
  | nil => simp [enlist, sorted]
  | cons c m ih =>
    obtain ⟨k, w⟩ := c
    have h' := sorted_cons.1 h
    have hk : k ≠ a := hm (k, w) (by simp)
    by_cases hlt : a < k
    · simp only [enlist, hlt, if_true]
      rw [sorted_cons]
      refine ⟨fun e he => ?_, h⟩
      rcases List.mem_cons.1 he with rfl | he
      · exact hlt
      · exact lt_trans hlt (h'.1 e he)
    · simp only [enlist, hlt, if_false]
      rw [sorted_cons]
      refine ⟨fun e he => ?_, ih h'.2 (fun c hc => hm c (by simp [hc]))⟩
      rcases mem_enlist.1 he with rfl | he
      · show k < a; omega
      · exact h'.1 e he

/-- A write keeps the canonical form. -/
theorem wf_write (cfg : Config) {m : Memory} (a : Nat) (v : Byte) (h : m.wf cfg = true) :
    (m.write (resetByte cfg a) a v).wf cfg = true := by
  simp only [wf, Bool.and_eq_true, List.all_eq_true, bne_iff_ne] at h ⊢
  unfold write
  split
  · exact ⟨sorted_unlist a h.1, fun c hc => h.2 c (mem_unlist.1 hc).1⟩
  · rename_i hv
    refine ⟨sorted_enlist a v (sorted_unlist a h.1) (fun c hc => (mem_unlist.1 hc).2), fun c hc => ?_⟩
    rcases mem_enlist.1 hc with rfl | hc
    · exact hv
    · exact h.2 c (mem_unlist.1 hc).1

/-- A write to a writable address lists only writable addresses. -/
theorem listsWritable_write (cfg : Config) {m : Memory} (a : Nat) (v d : Byte) (h : m.listsWritable cfg = true)
    (ha : fontEnd ≤ a) (ha' : a < cfg.memSize) : (m.write d a v).listsWritable cfg = true := by
  simp only [listsWritable, List.all_eq_true, Bool.and_eq_true, decide_eq_true_eq] at h ⊢
  intro c hc
  unfold write at hc
  split at hc
  · exact h c (mem_unlist.1 hc).1
  · rcases mem_enlist.1 hc with rfl | hc
    · exact ⟨ha, ha'⟩
    · exact h c (mem_unlist.1 hc).1

end Memory

namespace State

variable (s : State)

/-- `MEM[b]` after `MEM[a] <- v`. -/
theorem byteAt_poke (a b : Nat) (v : Byte) :
    (s.poke a v).byteAt b = if b = a then v else s.byteAt b := by
  simp only [byteAt, poke_cfg, poke_mem]
  exact Memory.read_write _ _ _ _ _ _ (fun h => by rw [h])

/-- A block store writes memory and nothing else. -/
theorem pokeAll_eq (base : Nat) (bs : List Byte) : s.pokeAll base bs = { s with mem := (s.pokeAll base bs).mem } := by
  induction bs generalizing s base with
  | nil => rfl
  | cons v bs ih => exact ih (s.poke base v) (base + 1)

/-- `MEM[b]` after a block of bytes is stored at `base`. -/
theorem byteAt_pokeAll (base b : Nat) (bs : List Byte) :
    (s.pokeAll base bs).byteAt b = if h : base ≤ b ∧ b - base < bs.length then bs[b - base] else s.byteAt b := by
  induction bs generalizing s base with
  | nil => simp [pokeAll]
  | cons v bs ih =>
    rw [pokeAll, ih, byteAt_poke]
    by_cases h1 : base + 1 ≤ b ∧ b - (base + 1) < bs.length
    · obtain ⟨k, rfl⟩ : ∃ k, b = base + 1 + k := ⟨b - (base + 1), by omega⟩
      have hk : k < bs.length := by omega
      have e1 : base + 1 + k - (base + 1) = k := by omega
      have e2 : base + 1 + k - base = k + 1 := by omega
      simp [hk, e2, show base ≤ base + 1 + k by omega]
    · by_cases h2 : b = base
      · subst h2; simp
      · have : ¬ (base ≤ b ∧ b - base < bs.length + 1) := by omega
        rw [dif_neg h1, if_neg h2, dif_neg (by simpa using this)]

theorem byteAt_pokeAll_outside (base b : Nat) (bs : List Byte) (h : ¬ (base ≤ b ∧ b < base + bs.length)) :
    (s.pokeAll base bs).byteAt b = s.byteAt b := by
  rw [byteAt_pokeAll, dif_neg (by omega)]

theorem byteAt_pokeAll_inside (base k : Nat) (bs : List Byte) (h : k < bs.length) :
    (s.pokeAll base bs).byteAt (base + k) = bs[k] := by
  rw [byteAt_pokeAll, dif_pos (by omega)]
  simp

/-- Two states with the same memory and parameters read the same bytes. -/
theorem byteAt_congr {s t : State} (hm : t.mem = s.mem) (hc : t.cfg = s.cfg) (a : Nat) : t.byteAt a = s.byteAt a := by
  simp only [byteAt, hm, hc]

@[simp] theorem length_bytesFrom (base n : Nat) : (s.bytesFrom base n).length = n := by
  induction n generalizing base with
  | zero => rfl
  | succ n ih => simp [bytesFrom, ih]

theorem getElem_bytesFrom (base n k : Nat) (h : k < n) :
    (s.bytesFrom base n)[k]'(by simpa using h) = s.byteAt (base + k) := by
  induction n generalizing base k with
  | zero => omega
  | succ n ih =>
    cases k with
    | zero => simp [bytesFrom]
    | succ k =>
      simp only [bytesFrom, List.getElem_cons_succ]
      rw [ih (base + 1) k (by omega)]
      congr 1; omega

theorem bytesFrom_congr {s t : State} (h : ∀ a, t.byteAt a = s.byteAt a) (base n : Nat) :
    t.bytesFrom base n = s.bytesFrom base n := by
  induction n generalizing base with
  | zero => rfl
  | succ n ih => simp [bytesFrom, h, ih]

theorem wf_pokeAll (base : Nat) (bs : List Byte) (h : s.mem.wf s.cfg = true) :
    (s.pokeAll base bs).mem.wf s.cfg = true := by
  induction bs generalizing s base with
  | nil => exact h
  | cons v bs ih => exact ih (s.poke base v) (base + 1) (Memory.wf_write s.cfg base v h)

theorem listsWritable_pokeAll (base : Nat) (bs : List Byte) (h : s.mem.listsWritable s.cfg = true)
    (hb : bs ≠ [] → fontEnd ≤ base) (he : base + bs.length ≤ s.cfg.memSize) :
    (s.pokeAll base bs).mem.listsWritable s.cfg = true := by
  induction bs generalizing s base with
  | nil => exact h
  | cons v bs ih =>
    have hb' := hb (by simp)
    simp only [List.length_cons] at he
    exact ih (s.poke base v) (base + 1)
      (Memory.listsWritable_write s.cfg base v _ h hb' (by omega)) (fun _ => by omega)
      (by simp only [poke_cfg]; omega)

end State
end Sys2Proof.Machine
end

