-- ==== Sys2Proof/Laws/Ops.lean ====
section
/-! SUPPORT. What each shared operation can do: registers, inputs, checks, blocks, completing and attempting. -/

namespace Sys2Proof.Machine

namespace State

variable (s : State)

/-! ### Registers -/

theorem reg_setReg (x y : Reg) (b : Byte) : (s.setReg x b).reg y = if y = x then b else s.reg y := by
  by_cases h : x = y
  · subst h; simp [reg]
  · have : x.val ≠ y.val := fun h' => h (Fin.ext h')
    simp [reg, Ne.symm h, Vector.getElem_set_ne, this]

@[simp] theorem reg_setReg_self (x : Reg) (b : Byte) : (s.setReg x b).reg x = b := by simp [reg_setReg]

theorem reg_setReg_ne {x y : Reg} (b : Byte) (h : y ≠ x) : (s.setReg x b).reg y = s.reg y := by simp [reg_setReg, h]

theorem reg_congr {s t : State} (h : t.V = s.V) (x : Reg) : t.reg x = s.reg x := by simp only [reg, h]

/-- Registers read alike in two states whose register files are equal, and conversely. -/
theorem V_ext {s t : State} (h : ∀ x, t.reg x = s.reg x) : t.V = s.V := by
  apply Vector.ext
  intro i hi
  exact h ⟨i, hi⟩

theorem toNat_nextPc (pc : PcWord) : (nextPc pc).toNat = (pc.toNat + 2) % 65536 := by
  simp [nextPc, BitVec.toNat_add]

@[simp] theorem reg_advance (x : Reg) : s.advance.reg x = s.reg x := rfl
@[simp] theorem reg_setFb (f : FrameBuffer) (x : Reg) : (s.setFb f).reg x = s.reg x := rfl
@[simp] theorem reg_consumeRnd (x : Reg) : s.consumeRnd.reg x = s.reg x := rfl

/-- `V[k]` after `bytes` are loaded from register r up. -/
theorem reg_setRegsFrom (r : Nat) (bs : List Byte) (k : Reg) (h : r + bs.length ≤ 16) :
    (s.setRegsFrom r bs).reg k = if h : r ≤ k.val ∧ k.val - r < bs.length then bs[k.val - r] else s.reg k := by
  induction bs generalizing s r with
  | nil => simp [setRegsFrom]
  | cons b bs ih =>
    simp only [List.length_cons] at h
    rw [setRegsFrom, ih _ _ (by omega), reg_setReg]
    by_cases h1 : r + 1 ≤ k.val ∧ k.val - (r + 1) < bs.length
    · obtain ⟨j, hj⟩ : ∃ j, k.val = r + 1 + j := ⟨k.val - (r + 1), by omega⟩
      rw [dif_pos h1, dif_pos ⟨by omega, by simp only [List.length_cons]; omega⟩]
      have e : k.val - r = (k.val - (r + 1)) + 1 := by omega
      simp [e]
    · rw [dif_neg h1]
      by_cases h2 : k = Fin.ofNat 16 r
      · have hk : k.val = r := by rw [h2]; simp [Fin.ofNat]; omega
        rw [if_pos h2, dif_pos ⟨by omega, by simp [hk]⟩]
        simp [hk]
      · have hk : k.val ≠ r := fun h' => h2 (by
          apply Fin.ext
          rw [h']; simp only [Fin.ofNat]; omega)
        rw [if_neg h2, dif_neg (by simp only [List.length_cons]; omega)]

/-- A block load writes registers and nothing else. -/
theorem setRegsFrom_eq (r : Nat) (bs : List Byte) : s.setRegsFrom r bs = { s with V := (s.setRegsFrom r bs).V } := by
  induction bs generalizing s r with
  | nil => rfl
  | cons v bs ih => exact ih (s.setReg (Fin.ofNat 16 r) v) (r + 1)

@[simp] theorem length_regsUpTo (x : Reg) : (s.regsUpTo x).length = x.val + 1 := by
  have := x.isLt
  simp [regsUpTo]

theorem getElem_regsUpTo (x : Reg) (k : Nat) (h : k < x.val + 1) :
    (s.regsUpTo x)[k]'(by simpa using h) = s.reg ⟨k, by have := x.isLt; omega⟩ := by
  simp [regsUpTo, reg]

/-! ### Bytes are read alike where memory is untouched -/

@[simp] theorem byteAt_advance (a : Nat) : s.advance.byteAt a = s.byteAt a := rfl
@[simp] theorem byteAt_setReg (x : Reg) (b : Byte) (a : Nat) : (s.setReg x b).byteAt a = s.byteAt a := rfl
@[simp] theorem byteAt_takeFatal (r : Raise) (w : Word) (a : Nat) : (s.takeFatal r w).byteAt a = s.byteAt a := rfl
@[simp] theorem byteAt_wake (k a : Nat) : (s.wake k).byteAt a = s.byteAt a := rfl
@[simp] theorem byteAt_afterSubStep (a : Nat) : s.afterSubStep.byteAt a = s.byteAt a :=
  byteAt_congr (by simp) (by simp) a

@[simp] theorem dataBase_advance : s.advance.dataBase = s.dataBase := rfl
@[simp] theorem keys_advance : s.advance.keys = s.keys := rfl
@[simp] theorem rnd_advance : s.advance.rnd = s.rnd := rfl

/-! ### Checks and blocks -/

theorem checkRead_eq_none {base n : Nat} : s.checkRead base n = none ↔ n = 0 ∨ base + n ≤ s.cfg.memSize := by
  simp only [checkRead]; split <;> simp <;> omega

theorem checkRead_eq_some {base n : Nat} {r : Raise} (h : s.checkRead base n = some r) :
    n ≠ 0 ∧ s.cfg.memSize < base + n ∧ r = .memReadOor (max base s.cfg.memSize) := by
  simp only [checkRead] at h; split at h
  · rename_i h1; exact ⟨h1.1, h1.2, by simpa using h.symm⟩
  · exact absurd h (by simp)

theorem checkWrite_eq_none {base n : Nat} :
    s.checkWrite base n = none ↔ n = 0 ∨ (fontEnd ≤ base ∧ base + n ≤ s.cfg.memSize) := by
  simp only [checkWrite]; split
  · simp; omega
  · split <;> simp <;> omega

theorem checkWrite_eq_some {base n : Nat} {r : Raise} (h : s.checkWrite base n = some r) :
    n ≠ 0 ∧ ((s.cfg.memSize < base + n ∧ r = .memWriteOor (max base s.cfg.memSize)) ∨
      (base + n ≤ s.cfg.memSize ∧ base < fontEnd ∧ r = .fontWrite (max base hw.fontBase))) := by
  simp only [checkWrite] at h; split at h
  · rename_i h1; exact ⟨h1.1, .inl ⟨h1.2, by simpa using h.symm⟩⟩
  · split at h
    · rename_i h1 h2; exact ⟨h2.1, .inr ⟨by omega, h2.2.1, by simpa using h.symm⟩⟩
    · exact absurd h (by simp)

theorem readBlock_cases (base n : Nat) :
    (n = 0 ∨ base + n ≤ s.cfg.memSize) ∧ s.readBlock base n = .ok (s.bytesFrom base n) ∨
    (n ≠ 0 ∧ s.cfg.memSize < base + n) ∧ s.readBlock base n = .error (.memReadOor (max base s.cfg.memSize)) := by
  unfold readBlock
  cases h : s.checkRead base n with
  | none => exact .inl ⟨s.checkRead_eq_none.1 h, rfl⟩
  | some r => obtain ⟨h1, h2, rfl⟩ := s.checkRead_eq_some h; exact .inr ⟨⟨h1, h2⟩, rfl⟩

theorem writeBlock_cases (base : Nat) (bs : List Byte) :
    (bs = [] ∨ (fontEnd ≤ base ∧ base + bs.length ≤ s.cfg.memSize)) ∧
      s.writeBlock base bs = .ok (s.pokeAll base bs) ∨
    (bs ≠ [] ∧ s.cfg.memSize < base + bs.length) ∧
      s.writeBlock base bs = .error (.memWriteOor (max base s.cfg.memSize)) ∨
    (bs ≠ [] ∧ base + bs.length ≤ s.cfg.memSize ∧ base < fontEnd) ∧
      s.writeBlock base bs = .error (.fontWrite (max base hw.fontBase)) := by
  unfold writeBlock
  cases h : s.checkWrite base bs.length with
  | none =>
    refine .inl ⟨?_, rfl⟩
    simpa using s.checkWrite_eq_none.1 h
  | some r =>
    obtain ⟨h0, ⟨h1, rfl⟩ | ⟨h1, h2, rfl⟩⟩ := s.checkWrite_eq_some h
    · exact .inr (.inl ⟨⟨by simpa using h0, h1⟩, rfl⟩)
    · exact .inr (.inr ⟨⟨by simpa using h0, h1, h2⟩, rfl⟩)

theorem fetch_ok (h : s.pc.toNat + 1 < s.cfg.memSize) :
    s.fetch = .ok (wordOfBytes (s.byteAt s.pc.toNat) (s.byteAt (s.pc.toNat + 1))) := by
  simp [fetch, Nat.not_le.2 h]

theorem fetch_error (h : s.cfg.memSize ≤ s.pc.toNat + 1) : s.fetch = .error (.fetchOor s.pc.toNat) := by
  simp [fetch, h]

theorem keyOf_ok (x : Reg) (h : (s.reg x).toNat ≤ 15) : s.keyOf x = .ok (s.keys.getLsbD (s.reg x).toNat) := by
  simp [keyOf, Nat.lt_succ_of_le h]

theorem keyOf_error (x : Reg) (h : 15 < (s.reg x).toNat) : s.keyOf x = .error (.keyIndex (s.reg x).toNat) := by
  simp [keyOf, Nat.succ_le_of_lt h]

theorem Raise_cause_ne_none (r : Raise) : r.cause ≠ .none := by cases r <;> simp [Raise.cause]

end State

/-! ### Completing and attempting -/

theorem complete_eq (s : State) (body : State → State) : complete s body = .next (body s.advance) := rfl

theorem attempt_ok {i : Instr} {s t : State} {body : State → Except Raise State} (h : body s.advance = .ok t) :
    attempt i s body = .next t := by simp [attempt, h]

theorem attempt_error {i : Instr} {s : State} {r : Raise} {body : State → Except Raise State}
    (h : body s.advance = .error r) : attempt i s body = .next (s.takeFatal r (encode i)) := by simp [attempt, h]

/-- An attempt answers a next state: the body's, or the fatal condition taken from the state before the fetch. -/
theorem attempt_cases {i : Instr} {s t : State} {body : State → Except Raise State} (h : attempt i s body = .next t) :
    body s.advance = .ok t ∨ ∃ r, body s.advance = .error r ∧ t = s.takeFatal r (encode i) := by
  cases hb : body s.advance with
  | ok u => rw [attempt_ok hb] at h; exact .inl (by rw [Host.Outcome.next.inj h])
  | error r => rw [attempt_error hb] at h; exact .inr ⟨r, rfl, (Host.Outcome.next.inj h).symm⟩

theorem attempt_total (i : Instr) (s : State) (body : State → Except Raise State) : ∃ t, attempt i s body = .next t := by
  cases hb : body s.advance with
  | ok u => exact ⟨_, attempt_ok hb⟩
  | error r => exact ⟨_, attempt_error hb⟩

/-! ### The least pressed key -/

theorem lowestPressed_eq_none {k : BitVec 16} : lowestPressed k = none ↔ k = 0 := by
  simp only [lowestPressed, List.find?_eq_none, List.mem_range]
  constructor
  · intro h
    apply BitVec.eq_of_getLsbD_eq
    intro i hi
    simpa using h i hi
  · rintro rfl i hi; simp

theorem lowestPressed_eq_some {k : BitVec 16} {i : Nat} (h : lowestPressed k = some i) :
    i < 16 ∧ k.getLsbD i = true ∧ ∀ j < i, k.getLsbD j = false := by
  rw [lowestPressed, List.find?_range_eq_some] at h
  obtain ⟨h1, h2, h3⟩ := h
  exact ⟨by simpa using h2, h1, fun j hj => by simpa using h3 j hj⟩

theorem exists_lowestPressed {k : BitVec 16} (h : k ≠ 0) : ∃ i, lowestPressed k = some i := by
  cases hk : lowestPressed k with
  | none => exact absurd (lowestPressed_eq_none.1 hk) h
  | some i => exact ⟨i, rfl⟩

/-! ### The fixed memory below the font's end -/

theorem font_kept_pokeAll (s : State) (base a : Nat) (bs : List Byte) (h : bs = [] ∨ fontEnd ≤ base)
    (ha : a < fontEnd) : (s.pokeAll base bs).byteAt a = s.byteAt a := by
  apply s.byteAt_pokeAll_outside
  rcases h with rfl | h
  · simp
  · omega

end Sys2Proof.Machine
end

