-- ==== Sys2Proof/Laws/Exec.lean ====
section
/-! SUPPORT. What each meaning can answer, said once: the conditional instructions case by case, and `exec_cases` for all. -/

namespace Sys2Proof.Machine

open Host.Outcome

/-! ### The instructions that may raise -/

theorem exec_ret_cons {s : State} {a : Word} {rest : List Word} (h : s.stack = a :: rest) :
    exec .ret s = .next { s with pc := a, stack := rest } := by
  simp only [exec, execRet]
  refine attempt_ok ?_
  simp only [State.advance_stack, h]
  rfl

theorem exec_ret_nil {s : State} (h : s.stack = []) : exec .ret s = .next (s.takeFatal .stackEmpty (encode .ret)) := by
  simp only [exec, execRet]
  exact attempt_error (by simp only [State.advance_stack, h])

theorem exec_call_ok {s : State} {nnn : BitVec 12} (h : s.stackIsFull = false) :
    exec (.call nnn) s = .next { s with pc := zextAddr nnn, stack := (s.pc + 2) :: s.stack } := by
  simp only [exec, execCall]
  refine attempt_ok ?_
  rw [show s.advance.stackIsFull = s.stackIsFull from rfl, h]
  rfl

theorem exec_call_full {s : State} {nnn : BitVec 12} (h : s.stackIsFull = true) :
    exec (.call nnn) s = .next (s.takeFatal .stackFull (encode (.call nnn))) := by
  simp only [exec, execCall]
  refine attempt_error ?_
  rw [show s.advance.stackIsFull = s.stackIsFull from rfl, h]
  rfl

/-- The two stores, over the block they write. -/
theorem attempt_writeBlock_cases (i : Instr) (s : State) (bytes : State → List Byte) (hb : bytes s.advance = bytes s)
    (hne : bytes s ≠ []) :
    let o := attempt i s fun t => t.writeBlock t.dataBase (bytes t)
    (fontEnd ≤ s.dataBase ∧ s.dataBase + (bytes s).length ≤ s.cfg.memSize ∧
      o = .next (s.advance.pokeAll s.dataBase (bytes s))) ∨
    (s.cfg.memSize < s.dataBase + (bytes s).length ∧ ∃ a, o = .next (s.takeFatal (.memWriteOor a) (encode i))) ∨
    (s.dataBase + (bytes s).length ≤ s.cfg.memSize ∧ s.dataBase < fontEnd ∧
      ∃ a, o = .next (s.takeFatal (.fontWrite a) (encode i))) := by
  intro o
  rcases s.advance.writeBlock_cases s.advance.dataBase (bytes s.advance) with ⟨h, he⟩ | ⟨h, he⟩ | ⟨h, he⟩
  all_goals simp only [State.dataBase_advance, State.advance_cfg, hb] at h he
  · obtain ⟨h1, h2⟩ := h.resolve_left hne
    exact .inl ⟨h1, h2, attempt_ok (by simpa only [State.dataBase_advance, hb] using he)⟩
  · exact .inr (.inl ⟨h.2, _, attempt_error (by simpa only [State.dataBase_advance, hb] using he)⟩)
  · exact .inr (.inr ⟨h.2.1, h.2.2, _, attempt_error (by simpa only [State.dataBase_advance, hb] using he)⟩)

theorem exec_ldB_cases (x : Reg) (s : State) :
    (fontEnd ≤ s.dataBase ∧ s.dataBase + 3 ≤ s.cfg.memSize ∧
      exec (.ldB x) s = .next (s.advance.pokeAll s.dataBase (bcdDigits (s.reg x)))) ∨
    (s.cfg.memSize < s.dataBase + 3 ∧ ∃ a, exec (.ldB x) s = .next (s.takeFatal (.memWriteOor a) (encode (.ldB x)))) ∨
    (s.dataBase + 3 ≤ s.cfg.memSize ∧ s.dataBase < fontEnd ∧
      ∃ a, exec (.ldB x) s = .next (s.takeFatal (.fontWrite a) (encode (.ldB x)))) :=
  attempt_writeBlock_cases (.ldB x) s (fun t => bcdDigits (t.reg x)) rfl (by simp [bcdDigits])

theorem exec_stRegs_cases (x : Reg) (s : State) :
    (fontEnd ≤ s.dataBase ∧ s.dataBase + (x.val + 1) ≤ s.cfg.memSize ∧
      exec (.stRegs x) s = .next (s.advance.pokeAll s.dataBase (s.regsUpTo x))) ∨
    (s.cfg.memSize < s.dataBase + (x.val + 1) ∧
      ∃ a, exec (.stRegs x) s = .next (s.takeFatal (.memWriteOor a) (encode (.stRegs x)))) ∨
    (s.dataBase + (x.val + 1) ≤ s.cfg.memSize ∧ s.dataBase < fontEnd ∧
      ∃ a, exec (.stRegs x) s = .next (s.takeFatal (.fontWrite a) (encode (.stRegs x)))) := by
  have h : s.regsUpTo x ≠ [] := by
    rw [← List.length_pos_iff]; simp
  have := attempt_writeBlock_cases (.stRegs x) s (fun t => t.regsUpTo x) rfl h
  simp only [State.length_regsUpTo] at this
  exact this

theorem exec_ldRegs_cases (x : Reg) (s : State) :
    (s.dataBase + (x.val + 1) ≤ s.cfg.memSize ∧
      exec (.ldRegs x) s = .next (s.advance.setRegsFrom 0 (s.bytesFrom s.dataBase (x.val + 1)))) ∨
    (s.cfg.memSize < s.dataBase + (x.val + 1) ∧
      ∃ a, exec (.ldRegs x) s = .next (s.takeFatal (.memReadOor a) (encode (.ldRegs x)))) := by
  simp only [exec, execLdRegs]
  rcases s.advance.readBlock_cases s.advance.dataBase (x.val + 1) with ⟨h, he⟩ | ⟨h, he⟩
  · refine .inl ⟨by simpa using h, attempt_ok ?_⟩
    simp only [he]
    rw [State.bytesFrom_congr (State.byteAt_advance s), State.dataBase_advance]
  · exact .inr ⟨h.2, max s.dataBase s.cfg.memSize, attempt_error (by simp only [he]; rfl)⟩

theorem exec_drw_cases (x y : Reg) (n : Nat) (s : State) :
    let d := s.fb.draw (s.reg x).toNat (s.reg y).toNat (s.bytesFrom s.dataBase n)
    ((n = 0 ∨ s.dataBase + n ≤ s.cfg.memSize) ∧
      exec (.drw x y n) s = .next ((s.advance.setFb d.1).setReg VF (if d.2 then 1 else 0))) ∨
    (n ≠ 0 ∧ s.cfg.memSize < s.dataBase + n ∧
      ∃ a, exec (.drw x y n) s = .next (s.takeFatal (.memReadOor a) (encode (.drw x y n)))) := by
  intro d
  simp only [exec, execDrw]
  rcases s.advance.readBlock_cases s.advance.dataBase n with ⟨h, he⟩ | ⟨h, he⟩
  · refine .inl ⟨h, attempt_ok ?_⟩
    simp only [he]
    rw [State.bytesFrom_congr (State.byteAt_advance s)]
    rfl
  · exact .inr ⟨h.1, h.2, max s.dataBase s.cfg.memSize, attempt_error (by simp only [he]; rfl)⟩

theorem exec_skp_ok {x : Reg} {s : State} (h : (s.reg x).toNat ≤ 15) :
    exec (.skp x) s = .next (s.advance.skipIf (s.keys.getLsbD (s.reg x).toNat)) := by
  simp only [exec, execSkp]
  exact attempt_ok (by simp only [s.advance.keyOf_ok x h, State.reg_advance, State.keys_advance])

theorem exec_sknp_ok {x : Reg} {s : State} (h : (s.reg x).toNat ≤ 15) :
    exec (.sknp x) s = .next (s.advance.skipIf (!s.keys.getLsbD (s.reg x).toNat)) := by
  simp only [exec, execSknp]
  exact attempt_ok (by simp only [s.advance.keyOf_ok x h, State.reg_advance, State.keys_advance])

theorem exec_skp_raise {x : Reg} {s : State} (h : 15 < (s.reg x).toNat) :
    ∃ k, exec (.skp x) s = .next (s.takeFatal (.keyIndex k) (encode (.skp x))) := by
  simp only [exec, execSkp]
  exact ⟨(s.reg x).toNat, attempt_error (by simp only [s.advance.keyOf_error x h]; rfl)⟩

theorem exec_sknp_raise {x : Reg} {s : State} (h : 15 < (s.reg x).toNat) :
    ∃ k, exec (.sknp x) s = .next (s.takeFatal (.keyIndex k) (encode (.sknp x))) := by
  simp only [exec, execSknp]
  exact ⟨(s.reg x).toNat, attempt_error (by simp only [s.advance.keyOf_error x h]; rfl)⟩

/-! ### All instructions at once -/

/-- The state an instruction that completes leaves. -/
def Completed (i : Instr) (s t : State) : Prop :=
  match i with
  | .cls => t = s.advance.setFb FrameBuffer.clear
  | .ret => ∃ a rest, s.stack = a :: rest ∧ t = { s with pc := a, stack := rest }
  | .jp nnn => t = s.setPc (zextAddr nnn)
  | .call nnn => s.stackIsFull = false ∧ t = { s with pc := zextAddr nnn, stack := (s.pc + 2) :: s.stack }
  | .seImm x kk => t = s.advance.skipIf (decide (s.reg x = kk))
  | .sneImm x kk => t = s.advance.skipIf (decide (s.reg x ≠ kk))
  | .seReg x y => t = s.advance.skipIf (decide (s.reg x = s.reg y))
  | .sneReg x y => t = s.advance.skipIf (decide (s.reg x ≠ s.reg y))
  | .ldImm x kk => t = s.advance.setReg x kk
  | .addImm x kk => t = s.advance.setReg x (s.reg x + kk)
  | .ldReg x y => t = s.advance.setReg x (s.reg y)
  | .orReg x y => t = s.advance.setReg x (s.reg x ||| s.reg y)
  | .andReg x y => t = s.advance.setReg x (s.reg x &&& s.reg y)
  | .xorReg x y => t = s.advance.setReg x (s.reg x ^^^ s.reg y)
  | .addReg x y => t = (s.advance.setReg x (s.reg x + s.reg y)).setReg VF (carryFlag (s.reg x) (s.reg y))
  | .subReg x y => t = (s.advance.setReg VF (greaterFlag (s.reg x) (s.reg y))).setReg x (s.reg x - s.reg y)
  | .shr x _ => t = (s.advance.setReg VF (bit0Flag (s.reg x))).setReg x (s.reg x >>> 1)
  | .subnReg x y => t = (s.advance.setReg VF (greaterFlag (s.reg y) (s.reg x))).setReg x (s.reg y - s.reg x)
  | .shl x _ => t = (s.advance.setReg VF (bit7Flag (s.reg x))).setReg x (s.reg x <<< 1)
  | .ldI nnn => t = s.advance.setI (zextAddr nnn)
  | .jpV0 nnn => t = s.setPc (zextByte (s.reg 0) + zextAddr nnn)
  | .rnd x kk => t = s.advance.consumeRnd.setReg x (s.rnd &&& kk)
  | .drw x y n => (n = 0 ∨ s.dataBase + n ≤ s.cfg.memSize) ∧
      t = (s.advance.setFb (s.fb.draw (s.reg x).toNat (s.reg y).toNat (s.bytesFrom s.dataBase n)).1).setReg VF
        (if (s.fb.draw (s.reg x).toNat (s.reg y).toNat (s.bytesFrom s.dataBase n)).2 then 1 else 0)
  | .skp x => (s.reg x).toNat ≤ 15 ∧ t = s.advance.skipIf (s.keys.getLsbD (s.reg x).toNat)
  | .sknp x => (s.reg x).toNat ≤ 15 ∧ t = s.advance.skipIf (!s.keys.getLsbD (s.reg x).toNat)
  | .ldVxDt x => t = s.advance.setReg x s.DT
  | .ldVxK x => t = s.advance.block x
  | .ldDtVx x => t = s.advance.setDT (s.reg x)
  | .ldStVx x => t = s.advance.setST (s.reg x)
  | .addI x => t = s.advance.setI (s.I + zextByte (s.reg x))
  | .ldF x => t = s.advance.setI (BitVec.ofNat 16 (5 * (s.reg x).toNat))
  | .ldB x => fontEnd ≤ s.dataBase ∧ s.dataBase + 3 ≤ s.cfg.memSize ∧
      t = s.advance.pokeAll s.dataBase (bcdDigits (s.reg x))
  | .stRegs x => fontEnd ≤ s.dataBase ∧ s.dataBase + (x.val + 1) ≤ s.cfg.memSize ∧
      t = s.advance.pokeAll s.dataBase (s.regsUpTo x)
  | .ldRegs x => s.dataBase + (x.val + 1) ≤ s.cfg.memSize ∧
      t = s.advance.setRegsFrom 0 (s.bytesFrom s.dataBase (x.val + 1))

/-- Everything `exec` can answer: the state of the completed instruction, or a fatal condition taken from the state
before the fetch. -/
theorem exec_cases (i : Instr) (s : State) :
    ∃ t, exec i s = .next t ∧ (Completed i s t ∨ ∃ r, t = s.takeFatal r (encode i)) := by
  cases i
  case ret =>
    cases h : s.stack with
    | nil => exact ⟨_, exec_ret_nil h, .inr ⟨_, rfl⟩⟩
    | cons a rest => exact ⟨_, exec_ret_cons h, .inl ⟨a, rest, h, rfl⟩⟩
  case call nnn =>
    cases h : s.stackIsFull
    · exact ⟨_, exec_call_ok h, .inl ⟨h, rfl⟩⟩
    · exact ⟨_, exec_call_full h, .inr ⟨_, rfl⟩⟩
  case drw x y n =>
    rcases exec_drw_cases x y n s with ⟨h, he⟩ | ⟨_, _, a, he⟩
    · exact ⟨_, he, .inl ⟨h, rfl⟩⟩
    · exact ⟨_, he, .inr ⟨_, rfl⟩⟩
  case skp x =>
    by_cases h : (s.reg x).toNat ≤ 15
    · exact ⟨_, exec_skp_ok h, .inl ⟨h, rfl⟩⟩
    · obtain ⟨k, he⟩ := exec_skp_raise (x := x) (s := s) (by omega)
      exact ⟨_, he, .inr ⟨_, rfl⟩⟩
  case sknp x =>
    by_cases h : (s.reg x).toNat ≤ 15
    · exact ⟨_, exec_sknp_ok h, .inl ⟨h, rfl⟩⟩
    · obtain ⟨k, he⟩ := exec_sknp_raise (x := x) (s := s) (by omega)
      exact ⟨_, he, .inr ⟨_, rfl⟩⟩
  case ldB x =>
    rcases exec_ldB_cases x s with ⟨h1, h2, he⟩ | ⟨_, a, he⟩ | ⟨_, _, a, he⟩
    · exact ⟨_, he, .inl ⟨h1, h2, rfl⟩⟩
    · exact ⟨_, he, .inr ⟨_, rfl⟩⟩
    · exact ⟨_, he, .inr ⟨_, rfl⟩⟩
  case stRegs x =>
    rcases exec_stRegs_cases x s with ⟨h1, h2, he⟩ | ⟨_, a, he⟩ | ⟨_, _, a, he⟩
    · exact ⟨_, he, .inl ⟨h1, h2, rfl⟩⟩
    · exact ⟨_, he, .inr ⟨_, rfl⟩⟩
    · exact ⟨_, he, .inr ⟨_, rfl⟩⟩
  case ldRegs x =>
    rcases exec_ldRegs_cases x s with ⟨h1, he⟩ | ⟨_, a, he⟩
    · exact ⟨_, he, .inl ⟨h1, rfl⟩⟩
    · exact ⟨_, he, .inr ⟨_, rfl⟩⟩
  all_goals exact ⟨_, rfl, .inl rfl⟩

theorem exec_inv {i : Instr} {s t : State} (h : exec i s = .next t) :
    Completed i s t ∨ ∃ r, t = s.takeFatal r (encode i) := by
  obtain ⟨u, hu, hc⟩ := exec_cases i s
  rw [h] at hu
  exact Host.Outcome.next.inj hu ▸ hc

/-- The fields no instruction writes, whether it completes or raises. -/
theorem exec_kept {i : Instr} {s t : State} (h : exec i s = .next t) :
    t.cfg = s.cfg ∧ t.diag = s.diag ∧ t.keyTape = s.keyTape ∧ t.tickNo = s.tickNo ∧ t.phase = s.phase ∧
      t.frames = s.frames ∧ t.stage = s.stage := by
  rcases exec_inv h with hc | ⟨r, rfl⟩
  · cases i
    case ret => obtain ⟨a, rest, _, rfl⟩ := hc; simp
    case call => obtain ⟨_, rfl⟩ := hc; simp
    case drw => obtain ⟨_, rfl⟩ := hc; simp
    case skp => obtain ⟨_, rfl⟩ := hc; simp
    case sknp => obtain ⟨_, rfl⟩ := hc; simp
    case ldB => obtain ⟨_, _, rfl⟩ := hc; simp
    case stRegs => obtain ⟨_, _, rfl⟩ := hc; simp
    case ldRegs => obtain ⟨_, rfl⟩ := hc; simp
    all_goals (cases hc; simp)
  · simp

end Sys2Proof.Machine
end

