-- ==== Sys2Proof/Laws/PerInstr.lean ====
section
/-! SUPPORT. Statements made per instruction (LAWS.json): RoundTrip, the decoder reads an instruction's word back. -/

namespace Sys2Proof.Laws.RoundTrip

/-- The word of a well-formed instruction decodes to it. -/
def Statement (i : Instr) : Prop := i.wellFormed = true → decodeWord (encode i) = .ok i

theorem cls : Statement .cls := fun _ => by decide
theorem ret : Statement .ret := fun _ => by decide
theorem jp (nnn : BitVec 12) : Statement (.jp nnn) := fun _ => by
  simp [encode, decodeWord, topNibble_formatA, fieldNnn_formatA]
theorem call (nnn : BitVec 12) : Statement (.call nnn) := fun _ => by
  simp [encode, decodeWord, topNibble_formatA, fieldNnn_formatA]
theorem ldI (nnn : BitVec 12) : Statement (.ldI nnn) := fun _ => by
  simp [encode, decodeWord, topNibble_formatA, fieldNnn_formatA]
theorem jpV0 (nnn : BitVec 12) : Statement (.jpV0 nnn) := fun _ => by
  simp [encode, decodeWord, topNibble_formatA, fieldNnn_formatA]
theorem seImm (x : Reg) (kk : Byte) : Statement (.seImm x kk) := fun _ => by
  simp [encode, decodeWord, topNibble_formatXK, fieldX_formatXK, fieldKk_formatXK]
theorem sneImm (x : Reg) (kk : Byte) : Statement (.sneImm x kk) := fun _ => by
  simp [encode, decodeWord, topNibble_formatXK, fieldX_formatXK, fieldKk_formatXK]
theorem ldImm (x : Reg) (kk : Byte) : Statement (.ldImm x kk) := fun _ => by
  simp [encode, decodeWord, topNibble_formatXK, fieldX_formatXK, fieldKk_formatXK]
theorem addImm (x : Reg) (kk : Byte) : Statement (.addImm x kk) := fun _ => by
  simp [encode, decodeWord, topNibble_formatXK, fieldX_formatXK, fieldKk_formatXK]
theorem rnd (x : Reg) (kk : Byte) : Statement (.rnd x kk) := fun _ => by
  simp [encode, decodeWord, topNibble_formatXK, fieldX_formatXK, fieldKk_formatXK]
theorem seReg (x y : Reg) : Statement (.seReg x y) := fun _ => by
  simp [encode, decodeWord, topNibble_formatXY, fieldX_formatXY, fieldY_formatXY, lowNibble_formatXY]
theorem sneReg (x y : Reg) : Statement (.sneReg x y) := fun _ => by
  simp [encode, decodeWord, topNibble_formatXY, fieldX_formatXY, fieldY_formatXY, lowNibble_formatXY]
theorem ldReg (x y : Reg) : Statement (.ldReg x y) := fun _ => by
  simp [encode, decodeWord, decodeAlu, topNibble_formatXY, fieldX_formatXY, fieldY_formatXY, lowNibble_formatXY]
theorem orReg (x y : Reg) : Statement (.orReg x y) := fun _ => by
  simp [encode, decodeWord, decodeAlu, topNibble_formatXY, fieldX_formatXY, fieldY_formatXY, lowNibble_formatXY]
theorem andReg (x y : Reg) : Statement (.andReg x y) := fun _ => by
  simp [encode, decodeWord, decodeAlu, topNibble_formatXY, fieldX_formatXY, fieldY_formatXY, lowNibble_formatXY]
theorem xorReg (x y : Reg) : Statement (.xorReg x y) := fun _ => by
  simp [encode, decodeWord, decodeAlu, topNibble_formatXY, fieldX_formatXY, fieldY_formatXY, lowNibble_formatXY]
theorem addReg (x y : Reg) : Statement (.addReg x y) := fun _ => by
  simp [encode, decodeWord, decodeAlu, topNibble_formatXY, fieldX_formatXY, fieldY_formatXY, lowNibble_formatXY]
theorem subReg (x y : Reg) : Statement (.subReg x y) := fun _ => by
  simp [encode, decodeWord, decodeAlu, topNibble_formatXY, fieldX_formatXY, fieldY_formatXY, lowNibble_formatXY]
theorem shr (x y : Reg) : Statement (.shr x y) := fun _ => by
  simp [encode, decodeWord, decodeAlu, topNibble_formatXY, fieldX_formatXY, fieldY_formatXY, lowNibble_formatXY]
theorem subnReg (x y : Reg) : Statement (.subnReg x y) := fun _ => by
  simp [encode, decodeWord, decodeAlu, topNibble_formatXY, fieldX_formatXY, fieldY_formatXY, lowNibble_formatXY]
theorem shl (x y : Reg) : Statement (.shl x y) := fun _ => by
  simp [encode, decodeWord, decodeAlu, topNibble_formatXY, fieldX_formatXY, fieldY_formatXY, lowNibble_formatXY]
theorem drw (x y : Reg) (n : Nat) : Statement (.drw x y n) := fun h => by
  have hn : n < 16 := by simpa [Instr.wellFormed] using h
  simp [encode, decodeWord, fieldN, topNibble_formatXY, fieldX_formatXY, fieldY_formatXY, lowNibble_formatXY,
    Nat.mod_eq_of_lt hn]
theorem skp (x : Reg) : Statement (.skp x) := fun _ => by
  simp [encode, decodeWord, decodeKey, formatXF, topNibble_formatXK, fieldX_formatXK, fieldKk_formatXK]
theorem sknp (x : Reg) : Statement (.sknp x) := fun _ => by
  simp [encode, decodeWord, decodeKey, formatXF, topNibble_formatXK, fieldX_formatXK, fieldKk_formatXK]
theorem ldVxDt (x : Reg) : Statement (.ldVxDt x) := fun _ => by
  simp [encode, decodeWord, decodeMisc, formatXF, topNibble_formatXK, fieldX_formatXK, fieldKk_formatXK]
theorem ldVxK (x : Reg) : Statement (.ldVxK x) := fun _ => by
  simp [encode, decodeWord, decodeMisc, formatXF, topNibble_formatXK, fieldX_formatXK, fieldKk_formatXK]
theorem ldDtVx (x : Reg) : Statement (.ldDtVx x) := fun _ => by
  simp [encode, decodeWord, decodeMisc, formatXF, topNibble_formatXK, fieldX_formatXK, fieldKk_formatXK]
theorem ldStVx (x : Reg) : Statement (.ldStVx x) := fun _ => by
  simp [encode, decodeWord, decodeMisc, formatXF, topNibble_formatXK, fieldX_formatXK, fieldKk_formatXK]
theorem addI (x : Reg) : Statement (.addI x) := fun _ => by
  simp [encode, decodeWord, decodeMisc, formatXF, topNibble_formatXK, fieldX_formatXK, fieldKk_formatXK]
theorem ldF (x : Reg) : Statement (.ldF x) := fun _ => by
  simp [encode, decodeWord, decodeMisc, formatXF, topNibble_formatXK, fieldX_formatXK, fieldKk_formatXK]
theorem ldB (x : Reg) : Statement (.ldB x) := fun _ => by
  simp [encode, decodeWord, decodeMisc, formatXF, topNibble_formatXK, fieldX_formatXK, fieldKk_formatXK]
theorem stRegs (x : Reg) : Statement (.stRegs x) := fun _ => by
  simp [encode, decodeWord, decodeMisc, formatXF, topNibble_formatXK, fieldX_formatXK, fieldKk_formatXK]
theorem ldRegs (x : Reg) : Statement (.ldRegs x) := fun _ => by
  simp [encode, decodeWord, decodeMisc, formatXF, topNibble_formatXK, fieldX_formatXK, fieldKk_formatXK]

end Sys2Proof.Laws.RoundTrip
end

