-- ==== Sys2Proof/Laws/Step.lean ====
section
/-! SUPPORT. What a sub-step and a step can do, said once. -/

namespace Sys2Proof.Machine

/-- The part of a sub-step from the fetch on: a failed fetch, an unknown opcode, or an instruction. -/
theorem fetchExecute_cases {s t : State} (h : fetchExecute s = .next t) :
    (s.cfg.memSize ≤ s.pc.toNat + 1 ∧ t = s.takeFatal (.fetchOor s.pc.toNat) 0) ∨
    (∃ w r, s.fetch = .ok w ∧ decodeWord w = .error r ∧ t = s.reportDecodeError w) ∨
    (∃ w i, s.fetch = .ok w ∧ decodeWord w = .ok i ∧ exec i s = .next t) := by
  unfold fetchExecute at h
  by_cases hr : s.cfg.memSize ≤ s.pc.toNat + 1
  · rw [s.fetch_error hr] at h
    exact .inl ⟨hr, (Host.Outcome.next.inj h).symm⟩
  · have hf := s.fetch_ok (Nat.lt_of_not_le hr)
    rw [hf] at h
    simp only at h
    cases hd : decodeWord (wordOfBytes (s.byteAt s.pc.toNat) (s.byteAt (s.pc.toNat + 1))) with
    | error r =>
      rw [hd] at h
      exact .inr (.inl ⟨_, r, hf, hd, (Host.Outcome.next.inj h).symm⟩)
    | ok i =>
      rw [hd] at h
      exact .inr (.inr ⟨_, i, hf, hd, h⟩)

theorem fetchExecute_total (s : State) : ∃ t, fetchExecute s = .next t := by
  unfold fetchExecute
  split
  · exact ⟨_, rfl⟩
  · split
    · exact ⟨_, rfl⟩
    · obtain ⟨t, ht, _⟩ := exec_cases _ s
      exact ⟨t, ht⟩

/-- A sub-step: idle, or the part from the fetch on, of `s` itself or of `s` after the wake. -/
theorem subStep_cases {s t : State} (h : subStep s = .next t) :
    (s.mode = .faulted ∧ t = s) ∨
    (s.mode = .blockedOnKey ∧ s.keys = 0 ∧ t = s) ∨
    (s.mode = .running ∧ fetchExecute s = .next t) ∨
    (s.mode = .blockedOnKey ∧ ∃ k, lowestPressed s.keys = some k ∧ fetchExecute (s.wake k) = .next t) := by
  unfold subStep at h
  cases hm : s.mode with
  | faulted => rw [hm] at h; exact .inl ⟨rfl, (Host.Outcome.next.inj h).symm⟩
  | running => rw [hm] at h; exact .inr (.inr (.inl ⟨rfl, h⟩))
  | blockedOnKey =>
    rw [hm] at h
    cases hk : lowestPressed s.keys with
    | none =>
      rw [hk] at h
      exact .inr (.inl ⟨rfl, lowestPressed_eq_none.1 hk, (Host.Outcome.next.inj h).symm⟩)
    | some k =>
      rw [hk] at h
      exact .inr (.inr (.inr ⟨rfl, k, rfl, h⟩))

/-- The fields no sub-step writes; DIAG only grows. -/
theorem fetchExecute_kept {s t : State} (h : fetchExecute s = .next t) :
    t.cfg = s.cfg ∧ s.diag <+: t.diag ∧ t.keyTape = s.keyTape ∧ t.tickNo = s.tickNo ∧ t.phase = s.phase ∧
      t.frames = s.frames ∧ t.stage = s.stage := by
  rcases fetchExecute_cases h with ⟨_, rfl⟩ | ⟨w, r, _, _, rfl⟩ | ⟨w, i, _, _, he⟩
  · simp
  · simp
  · obtain ⟨h1, h2, h3⟩ := exec_kept he
    exact ⟨h1, h2 ▸ List.prefix_refl _, h3⟩

theorem subStep_kept {s t : State} (h : subStep s = .next t) :
    t.cfg = s.cfg ∧ s.diag <+: t.diag ∧ t.keyTape = s.keyTape ∧ t.tickNo = s.tickNo ∧ t.phase = s.phase ∧
      t.frames = s.frames ∧ t.stage = s.stage := by
  rcases subStep_cases h with ⟨_, rfl⟩ | ⟨_, _, rfl⟩ | ⟨_, he⟩ | ⟨_, k, _, he⟩
  · simp
  · simp
  · exact fetchExecute_kept he
  · exact fetchExecute_kept (s := s.wake k) he

theorem subStep_next_exists (s : State) : ∃ t, subStep s = .next t := by
  unfold subStep
  split
  · exact ⟨_, rfl⟩
  · exact fetchExecute_total s
  · split
    · exact ⟨_, rfl⟩
    · exact fetchExecute_total _

theorem step_faulted {s : State} (h : s.mode = .faulted) : step s = .next s := by simp [step, h]

theorem step_of_subStep {s t : State} (hm : s.mode ≠ .faulted) (h : subStep s = .next t) :
    step s = .next t.afterSubStep := by simp [step, hm, h]

/-- A step: nothing when Faulted, else a sub-step and what the tick does after it. -/
theorem step_cases {s t : State} (h : step s = .next t) :
    (s.mode = .faulted ∧ t = s) ∨ (s.mode ≠ .faulted ∧ ∃ u, subStep s = .next u ∧ t = u.afterSubStep) := by
  by_cases hm : s.mode = .faulted
  · rw [step_faulted hm] at h
    exact .inl ⟨hm, (Host.Outcome.next.inj h).symm⟩
  · obtain ⟨u, hu⟩ := subStep_next_exists s
    rw [step_of_subStep hm hu] at h
    exact .inr ⟨hm, u, hu, (Host.Outcome.next.inj h).symm⟩

/-! ### Counting steps -/

theorem run_zero (s : State) : Sys2Proof.core.run 0 s = .next s := rfl

theorem run_succ (k : Nat) (s t : State) (h : step s = .next t) : Sys2Proof.core.run (k + 1) s = Sys2Proof.core.run k t := by
  simp only [Host.Core.run]
  rw [show Sys2Proof.core.step s = .next t from h]

/-! ### The instruction the host places is the one the next step runs -/

theorem withFetchWord_mode (s : State) (nbits w : Nat) : (s.withFetchWord nbits w).mode = .running := rfl

end Sys2Proof.Machine
end

