-- ==== Sys2Proof/Laws/Tick.lean ====
section
/-! SUPPORT. No instruction and no sub-step reads or writes the position inside the tick: both commute with `State.at`. -/

namespace Sys2Proof.Machine

/-- `s` at another position inside the tick. -/
def State.at (s : State) (p : Nat) (g : HostStage) : State := { s with phase := p, stage := g }

variable (p : Nat) (g : HostStage)

@[simp] theorem State.at_mode (s : State) : (s.at p g).mode = s.mode := rfl
@[simp] theorem State.at_cfg (s : State) : (s.at p g).cfg = s.cfg := rfl
@[simp] theorem State.at_phase (s : State) : (s.at p g).phase = p := rfl
@[simp] theorem State.at_keys (s : State) : (s.at p g).keys = s.keys := rfl
theorem State.at_at (s : State) (p' : Nat) (g' : HostStage) : (s.at p' g').at p g = s.at p g := rfl
theorem State.at_self (s : State) : s.at s.phase s.stage = s := rfl

theorem State.pokeAll_at (s : State) (base : Nat) (bs : List Byte) :
    (s.at p g).pokeAll base bs = (s.pokeAll base bs).at p g := by
  induction bs generalizing s base with
  | nil => rfl
  | cons v bs ih => exact ih (s.poke base v) (base + 1)

theorem State.setRegsFrom_at (s : State) (r : Nat) (bs : List Byte) :
    (s.at p g).setRegsFrom r bs = (s.setRegsFrom r bs).at p g := by
  induction bs generalizing s r with
  | nil => rfl
  | cons v bs ih => exact ih (s.setReg (Fin.ofNat 16 r) v) (r + 1)

theorem State.bytesFrom_at (s : State) (base n : Nat) : (s.at p g).bytesFrom base n = s.bytesFrom base n :=
  State.bytesFrom_congr (s := s) (t := s.at p g) (fun _ => rfl) base n

theorem State.writeBlock_at (s : State) (base : Nat) (bs : List Byte) :
    (s.at p g).writeBlock base bs = (s.writeBlock base bs).map (fun t => t.at p g) := by
  unfold State.writeBlock
  rw [State.pokeAll_at]
  show (match s.checkWrite base bs.length with | some r => _ | none => _) = _
  cases s.checkWrite base bs.length <;> rfl

theorem State.readBlock_at (s : State) (base n : Nat) : (s.at p g).readBlock base n = s.readBlock base n := by
  unfold State.readBlock
  rw [State.bytesFrom_at]
  rfl

theorem attempt_at {i : Instr} {s t : State} {body : State → Except Raise State}
    (hb : ∀ u : State, body (u.at p g) = (body u).map (fun v => v.at p g)) (h : attempt i s body = .next t) :
    attempt i (s.at p g) body = .next (t.at p g) := by
  have hb' := hb s.advance
  rcases attempt_cases h with hc | ⟨r, hc, rfl⟩
  · exact attempt_ok (by rw [show (s.at p g).advance = s.advance.at p g from rfl, hb', hc]; rfl)
  · exact attempt_error (by rw [show (s.at p g).advance = s.advance.at p g from rfl, hb', hc]; rfl)

theorem exec_at {i : Instr} {s t : State} (h : exec i s = .next t) : exec i (s.at p g) = .next (t.at p g) := by
  cases i
  case ret =>
    simp only [exec, execRet] at h ⊢
    refine attempt_at p g (fun u => ?_) h
    show (match u.stack with | [] => _ | _ :: _ => _) = _
    cases u.stack <;> rfl
  case call nnn =>
    simp only [exec, execCall] at h ⊢
    refine attempt_at p g (fun u => ?_) h
    show (if u.stackIsFull = true then _ else _) = _
    cases u.stackIsFull <;> rfl
  case drw x y n =>
    simp only [exec, execDrw] at h ⊢
    refine attempt_at p g (fun u => ?_) h
    rw [State.readBlock_at]
    show (match u.readBlock u.dataBase n with | .error r => _ | .ok rows => _) = _
    cases u.readBlock u.dataBase n <;> rfl
  case skp x =>
    simp only [exec, execSkp] at h ⊢
    refine attempt_at p g (fun u => ?_) h
    show (match u.keyOf x with | .error r => _ | .ok down => _) = _
    cases u.keyOf x <;> rfl
  case sknp x =>
    simp only [exec, execSknp] at h ⊢
    refine attempt_at p g (fun u => ?_) h
    show (match u.keyOf x with | .error r => _ | .ok down => _) = _
    cases u.keyOf x <;> rfl
  case ldB x =>
    simp only [exec, execLdB] at h ⊢
    exact attempt_at p g (fun u => State.writeBlock_at p g u _ _) h
  case stRegs x =>
    simp only [exec, execStRegs] at h ⊢
    exact attempt_at p g (fun u => State.writeBlock_at p g u _ _) h
  case ldRegs x =>
    simp only [exec, execLdRegs] at h ⊢
    refine attempt_at p g (fun u => ?_) h
    rw [State.readBlock_at]
    show (match u.readBlock u.dataBase (x.val + 1) with | .error r => _ | .ok bytes => _) = _
    cases u.readBlock u.dataBase (x.val + 1) with
    | error r => rfl
    | ok bytes => exact congrArg Except.ok (State.setRegsFrom_at p g u 0 bytes)
  all_goals (cases h; rfl)

theorem fetchExecute_at {s t : State} (h : fetchExecute s = .next t) :
    fetchExecute (s.at p g) = .next (t.at p g) := by
  rcases fetchExecute_cases h with ⟨hr, rfl⟩ | ⟨w, r, hf, hd, rfl⟩ | ⟨w, i, hf, hd, he⟩
  · have := (s.at p g).fetch_error hr
    simp only [fetchExecute, this]
    rfl
  · have : (s.at p g).fetch = .ok w := hf
    simp only [fetchExecute, this, hd]
    rfl
  · have : (s.at p g).fetch = .ok w := hf
    simp only [fetchExecute, this, hd]
    exact exec_at p g he

theorem subStep_at {s t : State} (h : subStep s = .next t) : subStep (s.at p g) = .next (t.at p g) := by
  rcases subStep_cases h with ⟨hm, rfl⟩ | ⟨hm, hk, rfl⟩ | ⟨hm, he⟩ | ⟨hm, k, hk, he⟩
  · simp [subStep, hm]
  · simp [subStep, hm, lowestPressed_eq_none.2 hk]
  · simp only [subStep, State.at_mode, hm]
    exact fetchExecute_at p g he
  · simp only [subStep, State.at_mode, hm, State.at_keys, hk]
    exact fetchExecute_at p g he

/-- The end of a tick does not depend on the position it is reached from. -/
theorem endTick_at (s : State) : (s.at p g).endTick = s.endTick := rfl

end Sys2Proof.Machine
end

