-- ==== Sys2Proof/Tests/Slice0.lean ====
section
/-! SUPPORT. The model's own tests: words written out from spec/30_encoding.md, one-step vectors of spec/95_test_vectors.md,
and for every statement with hypotheses a state and operands that meet them. -/

namespace Sys2Proof.Tests

open Sys2Proof.Machine

/-! ## The parameters, in the order and with the values of the table of 00_scope.md R8 -/

theorem test_parameters : hw = ⟨8, 16, 16, 16, 16, 8, 2, 64, 32, 16, 0x000, 80, 5, 0x200⟩ := by decide

/-! ## Well-formedness: the one check, and an ill-formed term it refuses -/

theorem test_wellFormed_refuses_height_16 : (Instr.drw 0 0 16).wellFormed = false := by decide
theorem test_wellFormed_accepts_height_15 : (Instr.drw 15 15 15).wellFormed = true := by decide

/-! ## Decoding: every row of the opcode table, its word written bit by bit from the pattern of R100 -/

theorem test_decode_cls : decodeWord 0b0000_0000_1110_0000#16 = .ok (.cls) := by decide
theorem test_decode_ret : decodeWord 0b0000_0000_1110_1110#16 = .ok (.ret) := by decide
theorem test_decode_jp : decodeWord 0b0001_0010_0011_0100#16 = .ok (.jp 0x234) := by decide
theorem test_decode_call : decodeWord 0b0010_1010_1011_1100#16 = .ok (.call 0xABC) := by decide
theorem test_decode_seImm : decodeWord 0b0011_0011_0010_1010#16 = .ok (.seImm 3 0x2A) := by decide
theorem test_decode_sneImm : decodeWord 0b0100_0011_0010_1010#16 = .ok (.sneImm 3 0x2A) := by decide
theorem test_decode_seReg : decodeWord 0b0101_0001_0010_0000#16 = .ok (.seReg 1 2) := by decide
theorem test_decode_ldImm : decodeWord 0b0110_1010_0010_1100#16 = .ok (.ldImm 10 0x2C) := by decide
theorem test_decode_addImm : decodeWord 0b0111_0001_0000_0010#16 = .ok (.addImm 1 0x02) := by decide
theorem test_decode_ldReg : decodeWord 0b1000_0001_0010_0000#16 = .ok (.ldReg 1 2) := by decide
theorem test_decode_orReg : decodeWord 0b1000_0001_0010_0001#16 = .ok (.orReg 1 2) := by decide
theorem test_decode_andReg : decodeWord 0b1000_0001_0010_0010#16 = .ok (.andReg 1 2) := by decide
theorem test_decode_xorReg : decodeWord 0b1000_0001_0010_0011#16 = .ok (.xorReg 1 2) := by decide
theorem test_decode_addReg : decodeWord 0b1000_0001_0010_0100#16 = .ok (.addReg 1 2) := by decide
theorem test_decode_subReg : decodeWord 0b1000_0001_0010_0101#16 = .ok (.subReg 1 2) := by decide
theorem test_decode_shr : decodeWord 0b1000_0001_0010_0110#16 = .ok (.shr 1 2) := by decide
theorem test_decode_subnReg : decodeWord 0b1000_0001_0010_0111#16 = .ok (.subnReg 1 2) := by decide
theorem test_decode_shl : decodeWord 0b1000_0001_0010_1110#16 = .ok (.shl 1 2) := by decide
theorem test_decode_sneReg : decodeWord 0b1001_0001_0010_0000#16 = .ok (.sneReg 1 2) := by decide
theorem test_decode_ldI : decodeWord 0b1010_0011_0000_0001#16 = .ok (.ldI 0x301) := by decide
theorem test_decode_jpV0 : decodeWord 0b1011_0010_1111_1111#16 = .ok (.jpV0 0x2FF) := by decide
theorem test_decode_rnd : decodeWord 0b1100_0011_0000_1111#16 = .ok (.rnd 3 0x0F) := by decide
theorem test_decode_drw : decodeWord 0b1101_0001_0010_1111#16 = .ok (.drw 1 2 15) := by decide
theorem test_decode_skp : decodeWord 0b1110_0100_1001_1110#16 = .ok (.skp 4) := by decide
theorem test_decode_sknp : decodeWord 0b1110_0100_1010_0001#16 = .ok (.sknp 4) := by decide
theorem test_decode_ldVxDt : decodeWord 0b1111_0101_0000_0111#16 = .ok (.ldVxDt 5) := by decide
theorem test_decode_ldVxK : decodeWord 0b1111_0011_0000_1010#16 = .ok (.ldVxK 3) := by decide
theorem test_decode_ldDtVx : decodeWord 0b1111_0101_0001_0101#16 = .ok (.ldDtVx 5) := by decide
theorem test_decode_ldStVx : decodeWord 0b1111_0101_0001_1000#16 = .ok (.ldStVx 5) := by decide
theorem test_decode_addI : decodeWord 0b1111_0010_0001_1110#16 = .ok (.addI 2) := by decide
theorem test_decode_ldF : decodeWord 0b1111_0000_0010_1001#16 = .ok (.ldF 0) := by decide
theorem test_decode_ldB : decodeWord 0b1111_0000_0011_0011#16 = .ok (.ldB 0) := by decide
theorem test_decode_stRegs : decodeWord 0b1111_1111_0101_0101#16 = .ok (.stRegs 15) := by decide
theorem test_decode_ldRegs : decodeWord 0b1111_0010_0110_0101#16 = .ok (.ldRegs 2) := by decide

/-! Reserved words are refused, one of each family that has some (R104, R106). -/

theorem test_decode_refuses_0 : decodeWord 0x0000#16 = .error (.unknownOpcode 0x0000#16) := by decide
theorem test_decode_refuses_0_machine : decodeWord 0x0123#16 = .error (.unknownOpcode 0x0123#16) := by decide
theorem test_decode_refuses_5 : decodeWord 0x5121#16 = .error (.unknownOpcode 0x5121#16) := by decide
theorem test_decode_refuses_8 : decodeWord 0x8008#16 = .error (.unknownOpcode 0x8008#16) := by decide
theorem test_decode_refuses_9 : decodeWord 0x9121#16 = .error (.unknownOpcode 0x9121#16) := by decide
theorem test_decode_refuses_E : decodeWord 0xE000#16 = .error (.unknownOpcode 0xE000#16) := by decide
theorem test_decode_refuses_F : decodeWord 0xF0FF#16 = .error (.unknownOpcode 0xF0FF#16) := by decide
theorem test_decode_refuses_one_byte : decodeBytes [0x12] = .error .truncated := by decide
theorem test_decodeTableWord_add : decodeTableWord 16 0x8124 = some (.addReg 1 2) := by decide

/-! ## One step each -/

/-- The next state, or `s` itself where there is none. -/
def nextOf (s : State) (o : Host.Outcome State Fault Refusal) : State :=
  match o with
  | .next t => t
  | _ => s

/-- Reset with the registers `vs`, I, and the bytes `bytes` at I. -/
def start (vs : List (Reg × Byte)) (i : Word) (bytes : List Byte) : State :=
  let s := vs.foldl (fun s v => s.setReg v.1 v.2) { State.reset with I := i }
  s.pokeAll i.toNat bytes

/-- `s` with inputs fixed: KEYS and the next random byte. -/
def feed (keys : BitVec 16) (rnd : Byte) (s : State) : State := { s with keyTape := [keys], rndTape := [rnd] }

/-- One step with the word `w` at 0x200. -/
def stepOn (w : Nat) (s : State) : State := nextOf s (step (s.withFetchWord 16 w))

/-- What a fatal condition left: cause number, FPC, FOPC, pc. -/
def record (s : State) : Nat × Word × Word × Word := (s.fcause.code, s.fpc, s.fopc, s.pc)

/-- Reset with V1 = a, V2 = b. -/
def two (a b : Byte) : State := start [(1, a), (2, b)] 0 []

/-- F2 of 95_test_vectors.md. -/
theorem test_jp_odd :
    (stepOn 0x1201 State.reset).pc = 0x201 := by decide
/-- F4 of 95_test_vectors.md. -/
theorem test_call :
    ((stepOn 0x2210 State.reset).stack, (stepOn 0x2210 State.reset).pc) = ([0x202], 0x210) := by decide
/-- F7 of 95_test_vectors.md. -/
theorem test_call_full :
    record (stepOn 0x2200 { State.reset with
      stack := [0x202, 0x202, 0x202, 0x202], cfg := { Config.ofSpec with stackDepth := some 4 } }) = (6, 0x200, 0x2200, 0x200) := by decide
/-- F5 of 95_test_vectors.md. -/
theorem test_ret :
    let t := stepOn 0x00EE { State.reset with stack := [0x206] }
    (t.stack, t.pc) = ([], 0x206) := by decide
/-- F6 of 95_test_vectors.md. -/
theorem test_ret_empty :
    record (stepOn 0x00EE State.reset) = (5, 0x200, 0x00EE, 0x200) := by decide
/-- F10 of 95_test_vectors.md. -/
theorem test_jpV0_no_mask :
    (stepOn 0xBFFF (start [(0, 0xFF)] 0 [])).pc = 0x10FE := by decide
/-- F11 of 95_test_vectors.md. -/
theorem test_seImm_taken :
    (stepOn 0x332A (start [(3, 0x2A)] 0 [])).pc = 0x204 := by decide
/-- F12 of 95_test_vectors.md. -/
theorem test_seImm_not_taken :
    (stepOn 0x332A (start [(3, 0x2B)] 0 [])).pc = 0x202 := by decide
/-- F13 of 95_test_vectors.md. -/
theorem test_sneImm_not_taken :
    (stepOn 0x432A (start [(3, 0x2A)] 0 [])).pc = 0x202 := by decide
/-- F14 of 95_test_vectors.md. -/
theorem test_sneImm_taken :
    (stepOn 0x432A State.reset).pc = 0x204 := by decide
/-- F15 of 95_test_vectors.md. -/
theorem test_seReg_taken :
    (stepOn 0x5120 (two 1 1)).pc = 0x204 := by decide
/-- F16 of 95_test_vectors.md. -/
theorem test_seReg_compares_y :
    (stepOn 0x5120 (two 1 2)).pc = 0x202 := by decide
/-- F18 of 95_test_vectors.md. -/
theorem test_sneReg_taken :
    (stepOn 0x9120 (two 7 8)).pc = 0x204 := by decide
/-- F19 of 95_test_vectors.md. -/
theorem test_sneReg_same_register :
    (stepOn 0x9110 (two 7 0)).pc = 0x202 := by decide
/-- A1 of 95_test_vectors.md. -/
theorem test_ldImm :
    (stepOn 0x6A2C State.reset).reg 10 = 0x2C := by decide
/-- A3 of 95_test_vectors.md. -/
theorem test_addImm_no_flag :
    let t := stepOn 0x7102 (two 0xFF 0)
    (t.reg 1, t.reg 15) = (0x01, 0x00) := by decide
/-- A5 of 95_test_vectors.md. -/
theorem test_ldReg :
    (stepOn 0x8120 (two 0 0x37)).reg 1 = 0x37 := by decide
/-- A6 of 95_test_vectors.md. -/
theorem test_orReg :
    (stepOn 0x8121 (two 0xF0 0x0F)).reg 1 = 0xFF := by decide
/-- A7 of 95_test_vectors.md. -/
theorem test_andReg :
    (stepOn 0x8122 (two 0xF5 0x3C)).reg 1 = 0x34 := by decide
/-- A8 of 95_test_vectors.md. -/
theorem test_xorReg :
    (stepOn 0x8123 (two 0xF5 0x3C)).reg 1 = 0xC9 := by decide
/-- A10 of 95_test_vectors.md. -/
theorem test_addReg_carry :
    let t := stepOn 0x8124 (two 0xFF 0x01)
    (t.reg 1, t.reg 15) = (0x00, 0x01) := by decide
/-- A14 of 95_test_vectors.md. -/
theorem test_addReg_into_VF :
    (stepOn 0x8F14 (start [(15, 0xF0), (1, 0x20)] 0 [])).reg 15 = 0x01 := by decide
/-- A18 of 95_test_vectors.md. -/
theorem test_subReg_borrow :
    let t := stepOn 0x8125 (two 0x03 0x05)
    (t.reg 1, t.reg 15) = (0xFE, 0x00) := by decide
/-- A22 of 95_test_vectors.md. -/
theorem test_subReg_into_VF :
    (stepOn 0x8F15 (start [(15, 0x10), (1, 0x20)] 0 [])).reg 15 = 0xF0 := by decide
/-- A25 of 95_test_vectors.md. -/
theorem test_shr_ignores_y :
    let t := stepOn 0x8126 (two 0xFF 0x00)
    (t.reg 1, t.reg 15) = (0x7F, 0x01) := by decide
/-- A26 of 95_test_vectors.md. -/
theorem test_shr_into_VF :
    (stepOn 0x8F16 (start [(15, 0x07)] 0 [])).reg 15 = 0x03 := by decide
/-- A27 of 95_test_vectors.md. -/
theorem test_subnReg :
    let t := stepOn 0x8127 (two 0x03 0x05)
    (t.reg 1, t.reg 15) = (0x02, 0x01) := by decide
/-- A30 of 95_test_vectors.md. -/
theorem test_subnReg_into_VF :
    (stepOn 0x8F17 (start [(15, 0x10), (1, 0x20)] 0 [])).reg 15 = 0x10 := by decide
/-- A31 of 95_test_vectors.md. -/
theorem test_shl :
    let t := stepOn 0x810E (two 0x81 0)
    (t.reg 1, t.reg 15) = (0x02, 0x01) := by decide
/-- A34 of 95_test_vectors.md. -/
theorem test_shl_into_VF :
    (stepOn 0x8F1E (start [(15, 0xC1)] 0 [])).reg 15 = 0x82 := by decide
/-- A35 of 95_test_vectors.md. -/
theorem test_rnd_masks :
    (stepOn 0xC30F (feed 0 0xA7 State.reset)).reg 3 = 0x07 := by decide
/-- M1 of 95_test_vectors.md. -/
theorem test_ldI :
    (stepOn 0xA300 State.reset).I = 0x300 := by decide
/-- M3 of 95_test_vectors.md. -/
theorem test_addI_wraps :
    let t := stepOn 0xF01E (start [(0, 0x01)] 0xFFFF [])
    (t.I, t.reg 15) = (0x0000, 0x00) := by decide
/-- M6 of 95_test_vectors.md. -/
theorem test_ldF_no_mask :
    (stepOn 0xF029 (start [(0, 0x1A)] 0 [])).I = 0x82 := by decide
/-- M11, with the digits of M10 of 95_test_vectors.md. -/
theorem test_ldB_last_address :
    (stepOn 0xF033 (start [(0, 0x9C)] 0xFFD [])).bytesFrom 0xFFD 3 = [1, 5, 6] := by decide
/-- M13 of 95_test_vectors.md. -/
theorem test_ldB_font :
    let t := stepOn 0xF033 (start [] 0x04E [])
    (record t, t.byteAt 0x050) = ((4, 0x200, 0xF033, 0x200), 0) := by decide
/-- M14 of 95_test_vectors.md. -/
theorem test_stRegs_keeps_I :
    let t := stepOn 0xF255 (start [(0, 0x11), (1, 0x22), (2, 0x33)] 0x300 [])
    (t.bytesFrom 0x300 4, t.I) = ([0x11, 0x22, 0x33, 0x00], 0x300) := by decide
/-- M16 of 95_test_vectors.md. -/
theorem test_stRegs_past_end :
    let t := stepOn 0xFF55 (start [(0, 0x07)] 0xFF1 [])
    (record t, t.byteAt 0xFF1) = ((3, 0x200, 0xFF55, 0x200), 0) := by decide
/-- M18 of 95_test_vectors.md. -/
theorem test_ldRegs :
    let t := stepOn 0xF265 (start [(3, 0x44)] 0x300 [2, 0, 5])
    (t.regsUpTo 3, t.I) = ([2, 0, 5, 0x44], 0x300) := by decide
/-- M21 of 95_test_vectors.md. -/
theorem test_ldRegs_font :
    (stepOn 0xF465 State.reset).regsUpTo 4 = [0xF0, 0x90, 0x90, 0x90, 0xF0] := by decide
/-- D1 of 95_test_vectors.md. -/
theorem test_cls :
    (stepOn 0x00E0 { State.reset with fb := FrameBuffer.clear.put 4 3 true }).fb = FrameBuffer.clear := by decide
/-- D4 of 95_test_vectors.md. -/
theorem test_drw_wraps :
    let t := stepOn 0xD011 (start [(0, 70), (1, 40)] 0x300 [0xFF])
    (t.fb.pixel 5 8, t.fb.pixel 6 8, t.fb.pixel 13 8, t.fb.pixel 14 8, t.reg 15) = (false, true, true, false, 0) := by decide
/-- D10 of 95_test_vectors.md. -/
theorem test_drw_collision :
    let t := stepOn 0xD011 { start [(0, 64), (1, 32)] 0x300 [0x80] with fb := FrameBuffer.clear.put 0 0 true }
    (t.fb.pixel 0 0, t.reg 15) = (false, 1) := by decide
/-- K1 of 95_test_vectors.md. -/
theorem test_skp_down :
    (stepOn 0xE49E (feed 0x0080 0 (start [(4, 7)] 0 []))).pc = 0x204 := by decide
/-- K6 of 95_test_vectors.md. -/
theorem test_skp_bad_index :
    record (stepOn 0xE09E (feed 0xFFFF 0 (start [(0, 16)] 0 []))) = (7, 0x200, 0xE09E, 0x200) := by decide
/-- K4 of 95_test_vectors.md. -/
theorem test_sknp_down :
    (stepOn 0xE4A1 (feed 0x0080 0 (start [(4, 7)] 0 []))).pc = 0x202 := by decide
/-- K5 of 95_test_vectors.md. -/
theorem test_sknp_up :
    (stepOn 0xE4A1 (feed 0x0000 0 (start [(4, 7)] 0 []))).pc = 0x204 := by decide
/-- K8 of 95_test_vectors.md. -/
theorem test_ldVxK_blocks :
    let t := stepOn 0xF30A (feed 0x0088 0 State.reset)
    (t.mode, t.keydest, t.pc, t.reg 3) = (.blockedOnKey, 3, 0x202, 0) := by decide
/-- K9, with another destination in the second instruction of 95_test_vectors.md. -/
theorem test_wake_then_executes :
    let t := nextOf State.reset (step { feed 0x0088 0 (start [] 0x202 [0x64, 0xAA]) with
      mode := .blockedOnKey, keydest := 3, pc := 0x202 })
    (t.mode, t.pc, t.reg 3, t.reg 4) = (.running, 0x204, 0x03, 0xAA) := by decide
/-- K12 of 95_test_vectors.md. -/
theorem test_ldVxDt :
    (stepOn 0xF507 { State.reset with DT := 0x2A }).reg 5 = 0x2A := by decide
/-- K13 of 95_test_vectors.md. -/
theorem test_ldDtVx :
    (stepOn 0xF515 (start [(5, 0x3C)] 0 [])).DT = 0x3C := by decide
/-- K14 of 95_test_vectors.md. -/
theorem test_ldStVx :
    (stepOn 0xF518 (start [(5, 0x02)] 0 [])).ST = 0x02 := by decide
/-- K15 of 95_test_vectors.md. -/
theorem test_endTick_running :
    let t := State.endTick { State.reset with DT := 1 }
    (t.DT, t.ST) = (0, 0) := by decide
/-- K16 of 95_test_vectors.md. -/
theorem test_endTick_blocked :
    let t := State.endTick { State.reset with DT := 5, ST := 5, mode := .blockedOnKey }
    (t.DT, t.ST) = (5, 5) := by decide
/-- 95_test_vectors.md section 2.6. -/
theorem test_unknown_opcode :
    let t := stepOn 0x0000 State.reset
    (t.pc, t.diag, t.mode) = (0x202, [⟨0x200, 0x0000⟩], .running) := by decide
/-- 95_test_vectors.md section 2.6. -/
theorem test_fetch_past_end :
    record (nextOf State.reset (step { State.reset with pc := 0xFFF })) = (1, 0xFFF, 0, 0xFFF) := by decide
/-- 95_test_vectors.md section 2.6. -/
theorem test_fetch_odd :
    let t := nextOf State.reset (step { start [] 0x201 [0x6A, 0x2C] with pc := 0x201 })
    (t.reg 10, t.pc) = (0x2C, 0x203) := by decide

/-! ## Reset (10_state.md R47) -/

theorem test_reset_memory_wf : State.reset.mem.wf State.reset.cfg = true := by decide
theorem test_reset_glyph_A : State.reset.bytesFrom 50 5 = [0xF0, 0x90, 0xF0, 0x90, 0x90] := by decide
theorem test_memory_write_back_unlists :
    (((State.reset.poke 0x300 7).poke 0x200 1).poke 0x300 0).mem = [(0x200, 1)] := by decide

/-! ## Witnesses: a state and operands that meet the hypotheses of each statement that has some -/

/-- Reset at pc = p in mode m. -/
def at_ (p : Word) (m : Mode) : State := { State.reset with pc := p, mode := m }

/-- Blocked on a key for V3, with these keys down. -/
def blocked (keys : BitVec 16) : State := { feed keys 0 State.reset with mode := .blockedOnKey, keydest := 3 }

/-- The state `i` leaves from `s`. -/
def after (i : Instr) (s : State) : State := nextOf s (exec i s)

/-- The state a step leaves from `s`. -/
def stepped (s : State) : State := nextOf s (step s)

theorem witness_EncodedBytesDecodeBack : ∃ i : Instr, i.wellFormed = true := ⟨.drw 15 15 15, by decide⟩
theorem witness_DecodedWordEncodesBack : decodeWord 0xDFFF = .ok (.drw 15 15 15) := by decide
theorem witness_FetchIsBigEndian : (at_ 0xFFE .running).pc.toNat + 1 < (at_ 0xFFE .running).cfg.memSize := by decide
theorem witness_StepRunsTheDecodedInstruction :
    let s := State.reset.pokeAll 0x200 [0x12, 0x04]
    s.mode = .running ∧ s.pc.toNat + 1 < s.cfg.memSize ∧
      decodeBytes (s.bytesFrom s.pc.toNat 2) = .ok (.jp 0x204, []) ∧ exec (.jp 0x204) s = .next (s.setPc 0x204) :=
  ⟨by decide, by decide, by decide, rfl⟩
theorem witness_AfterSubStepMovesTheTick :
    (at_ 0x200 .faulted).mode = .faulted ∧
    (let s := { State.reset with phase := 8 }; s.mode ≠ .faulted ∧ s.phase + 1 < s.cfg.ipt) ∧
    (let s := { State.reset with phase := 9 }; s.mode = .running ∧ s.cfg.ipt ≤ s.phase + 1) ∧
    (let s := { blocked 0 with phase := 9 }; s.mode = .blockedOnKey ∧ s.cfg.ipt ≤ s.phase + 1) := by decide
theorem witness_UnknownOpcodeIsReportedAndSkipped :
    State.reset.mode = .running ∧ State.reset.fetch = .ok 0x0000 ∧ (∃ r, decodeWord 0x0000 = .error r) ∧
      State.reset.phase + 1 < State.reset.cfg.ipt :=
  ⟨rfl, by decide, ⟨.unknownOpcode 0, by decide⟩, by decide⟩
theorem witness_FailedFetchIsFatal :
    (at_ 0xFFF .running).mode = .running ∧ (at_ 0xFFF .running).cfg.memSize ≤ (at_ 0xFFF .running).pc.toNat + 1 := by decide
theorem witness_WakeCapturesTheLeastKeyAndGoesOn : (blocked 0x8000).mode = .blockedOnKey ∧ (blocked 0x8000).keys ≠ 0 := by decide
theorem witness_BlockedTickIsIdle : (blocked 0).mode = .blockedOnKey ∧ (blocked 0).keys = 0 := by decide
theorem witness_FaultedMachineStaysPut : (at_ 0x200 .faulted).mode = .faulted := by decide
theorem witness_IptStepsAreOneTick : 1 ≤ State.reset.cfg.ipt ∧ State.reset.phase = 0 := by decide
theorem witness_TimersChangeOncePerTick :
    (∃ u, State.reset.mode ≠ .faulted ∧ subStep State.reset = .next u ∧ State.reset.phase + 1 < State.reset.cfg.ipt ∧
      (¬ ∃ w x, State.reset.fetch = .ok w ∧ decodeWord w = .ok (.ldDtVx x)) ∧
      ¬ ∃ w x, State.reset.fetch = .ok w ∧ decodeWord w = .ok (.ldStVx x)) ∧
    (∃ u, let s := { State.reset with phase := 9 }
      s.mode ≠ .faulted ∧ subStep s = .next u ∧ s.cfg.ipt ≤ s.phase + 1 ∧ u.mode = .running) ∧
    (∃ u, (blocked 0).mode ≠ .faulted ∧ subStep (blocked 0) = .next u ∧ u.mode ≠ .running) := by
  have hf : State.reset.fetch = .ok 0 := by decide
  have hd : decodeWord 0 = .error (.unknownOpcode 0) := by decide
  refine ⟨⟨State.reset.reportDecodeError 0, by decide, rfl, by decide, ?_, ?_⟩,
    ⟨({ State.reset with phase := 9 } : State).reportDecodeError 0, by decide, rfl, by decide, rfl⟩,
    ⟨blocked 0, by decide, rfl, by decide⟩⟩
  all_goals
    rintro ⟨w, x, h, h'⟩
    rw [hf] at h
    cases h
    rw [hd] at h'
    cases h'
theorem witness_FrameReadyOncePerTick :
    (∃ t, (blocked 0).mode ≠ .faulted ∧ tick (blocked 0) = .next t ∧ t.mode ≠ .faulted) ∧
    (∃ t, (at_ 0xFFF .running).mode ≠ .faulted ∧ tick (at_ 0xFFF .running) = .next t ∧ t.mode = .faulted) :=
  ⟨⟨nextOf (blocked 0) (tick (blocked 0)), by decide, rfl, by decide⟩,
   ⟨nextOf (at_ 0xFFF .running) (tick (at_ 0xFFF .running)), by decide, rfl, by decide⟩⟩
theorem witness_FatalConditionIsPrecise :
    (∃ t, (at_ 0xFFF .running).mode = .running ∧ step (at_ 0xFFF .running) = .next t ∧ t.mode = .faulted) ∧
    (∃ t, let s := { (blocked 0x0088).pokeAll 0x200 [0x00, 0xEE] with phase := 9 }
      s.mode = .blockedOnKey ∧ step s = .next t ∧ t.mode = .faulted) :=
  ⟨⟨stepped (at_ 0xFFF .running), by decide, rfl, by decide⟩,
   ⟨stepped { (blocked 0x0088).pokeAll 0x200 [0x00, 0xEE] with phase := 9 }, by decide, rfl, by decide⟩⟩
theorem witness_OnlyListedInstructionsRaise :
    (Instr.ldRegs 0).fatalCause (start [] 0xFFF []) = .none ∧ (Instr.ldRegs 1).fatalCause (start [] 0xFFF []) = .memReadOor ∧
    (Instr.ldB 0).fatalCause (start [] 0xFFD []) = .none ∧ (Instr.ldB 0).fatalCause (start [] 0xFFE []) = .memWriteOor ∧
    (Instr.stRegs 0).fatalCause (start [] 0x050 []) = .none ∧ (Instr.stRegs 0).fatalCause (start [] 0x04F []) = .fontWrite ∧
    (Instr.drw 0 0 0).fatalCause (start [] 0xFFFF []) = .none ∧ (Instr.drw 0 0 2).fatalCause (start [] 0xFFF []) = .memReadOor ∧
    (Instr.skp 0).fatalCause (start [(0, 15)] 0 []) = .none ∧ (Instr.sknp 0).fatalCause (start [(0, 16)] 0 []) = .keyIndex ∧
    Instr.ret.fatalCause State.reset = .stackEmpty ∧ (Instr.call 0).fatalCause State.reset = .none ∧
    (Instr.call 0).fatalCause { State.reset with cfg := { Config.ofSpec with stackDepth := some 0 } } = .stackFull := by decide
theorem witness_ResetSatisfiesInvariant :
    ({ Config.ofSpec with memSize := 4096, ipt := 1 } : Config).wf = true ∧
    ({ Config.ofSpec with memSize := 65536 } : Config).wf = true := by decide
theorem resetInv : State.reset.Inv :=
  { params := by decide, canonical := by decide, writable := by decide, phaseBound := by decide
    stackBound := fun _ h => by cases h
    faultRecord := fun h => by cases h
    faultWord := fun h => by cases h
    noRecord := fun _ => ⟨rfl, rfl, rfl⟩ }
theorem witness_EveryStepKeepsInvariant : State.reset.Inv ∧ ∃ t, step State.reset = .next t := ⟨resetInv, stepped State.reset, rfl⟩
theorem witness_NoStepChangesFontOrParameters : ∃ t, step State.reset = .next t := ⟨stepped State.reset, rfl⟩
theorem witness_CanonicalMemoriesReadingAlikeAreEqual :
    let m := (State.reset.poke 0x200 1).mem
    m.wf Config.ofSpec = true ∧ ∀ a, m.read (resetByte Config.ofSpec a) a = m.read (resetByte Config.ofSpec a) a :=
  ⟨by decide, fun _ => rfl⟩
theorem witness_ResetGivesTheResetState : (at_ 0x200 .faulted).phase = 0 := by decide
theorem witness_LoadCopiesTheImage :
    State.reset.phase = 0 ∧ State.reset.stage = .fresh ∧ 0x200 + (List.replicate 3584 (0 : Byte)).length ≤ State.reset.cfg.memSize ∧
      State.reset.cfg.memSize < 0x200 + (List.replicate 3585 (0 : Byte)).length := by
  refine ⟨rfl, rfl, ?_, ?_⟩ <;> rw [List.length_replicate] <;> decide
theorem witness_KeysConstantDuringTick : ∃ t, step State.reset = .next t ∧ t.phase ≠ 0 := ⟨stepped State.reset, rfl, by decide⟩
theorem witness_CallPushesTheReturnAddress :
    (∀ d, State.reset.cfg.stackDepth = some d → State.reset.stack.length < d) ∧
    (let s := { State.reset with stack := [1], cfg := { Config.ofSpec with stackDepth := some 2 } }
     ∀ d, s.cfg.stackDepth = some d → s.stack.length < d) ∧
    (let s := { State.reset with stack := [1, 2], cfg := { Config.ofSpec with stackDepth := some 2 } }
     s.cfg.stackDepth = some 2 ∧ 2 ≤ s.stack.length) :=
  ⟨(fun _ h => by cases h), (fun _ h => by cases h; decide), by decide⟩
theorem witness_ReturnPopsIntoPc :
    (∃ s : State, s.stack = 0x206 :: []) ∧ State.reset.stack = [] := ⟨⟨{ State.reset with stack := [0x206] }, rfl⟩, rfl⟩
theorem witness_ReturnResumesAfterTheCall :
    ∃ t u : State, exec (.call 0x300) State.reset = .next t ∧ t.fcause ≠ .stackFull ∧ u.stack = t.stack :=
  ⟨after (.call 0x300) State.reset, after (.call 0x300) State.reset, rfl, by decide, rfl⟩
theorem witness_AddSubtractAndShift : (0 : Reg) ≠ VF ∧ (14 : Reg) ≠ VF ∧ (15 : Reg) = VF := by decide
theorem witness_BcdStoreWritesThreeDigits :
    4096 ≤ State.reset.cfg.memSize ∧
    (let s := start [] 0x050 []; 0x050 ≤ s.dataBase ∧ s.dataBase + 2 < s.cfg.memSize) ∧
    (let s := start [] 0xFFD []; 0x050 ≤ s.dataBase ∧ s.dataBase + 2 < s.cfg.memSize) ∧
    (let s := start [] 0xFFE []; s.cfg.memSize ≤ s.dataBase + 2) ∧ (start [] 0x04F []).dataBase ≤ 0x04F := by decide
theorem witness_StoreRegistersWritesTheBlock :
    (let s := start [] 0x050 []; 0x050 ≤ s.dataBase ∧ s.dataBase + (15 : Reg).val < s.cfg.memSize) ∧
    (let s := start [] 0xFF0 []; 0x050 ≤ s.dataBase ∧ s.dataBase + (15 : Reg).val < s.cfg.memSize) ∧
    (let s := start [] 0xFF1 []; s.cfg.memSize ≤ s.dataBase + (15 : Reg).val) ∧ (start [] 0x04F []).dataBase ≤ 0x04F := by decide
theorem witness_LoadRegistersReadsTheBlock :
    (let s := start [] 0xFFF []; s.dataBase + (0 : Reg).val < s.cfg.memSize ∧ s.cfg.memSize ≤ s.dataBase + (1 : Reg).val) ∧
    (let s := start [] 0x000 []; s.dataBase + (15 : Reg).val < s.cfg.memSize) := by decide
theorem witness_StoreThenLoadRestoresRegisters :
    ∃ t u : State, let s := start [(0, 7)] 0xFFF []
      s.mode ≠ .faulted ∧ exec (.stRegs 0) s = .next t ∧ t.mode ≠ .faulted ∧ u.cfg = t.cfg ∧ u.I = t.I ∧
        ∀ r, r ≤ (0 : Reg).val → u.byteAt (t.I.toNat + r) = t.byteAt (t.I.toNat + r) :=
  ⟨after (.stRegs 0) (start [(0, 7)] 0xFFF []), after (.stRegs 0) (start [(0, 7)] 0xFFF []), by decide, rfl, by decide, rfl, rfl,
    fun _ _ => rfl⟩
theorem witness_StoreIsSeenByTheNextFetch :
    ∃ t : State, let s := start [(0, 0x12), (1, 0x0A)] 0x202 []
      s.mode ≠ .faulted ∧ 1 ≤ (1 : Reg).val ∧ s.I = s.pc + 2 ∧ exec (.stRegs 1) s = .next t ∧ t.mode ≠ .faulted :=
  ⟨after (.stRegs 1) (start [(0, 0x12), (1, 0x0A)] 0x202 []), by decide, by decide, by decide, rfl, by decide⟩
theorem witness_DrawXorsTheWrappedSprite :
    (let s := start [] 0xFFFF []; (0 = 0 ∨ s.dataBase + (0 - 1) < s.cfg.memSize)) ∧
    (let s := start [] 0xFF1 []; 15 < 16 ∧ s.dataBase + (15 - 1) < s.cfg.memSize) ∧
    (let s := start [] 0xFF2 []; 0 < 15 ∧ s.cfg.memSize ≤ s.dataBase + (15 - 1)) := by decide
theorem witness_spriteCovers : SpriteCovers (start [] 0x300 [0x01]) 60 31 1 3 31 :=
  ⟨0, 7, by decide, by decide, by decide, by decide, by decide⟩
theorem witness_DrawingTwiceRestoresTheFramebuffer :
    ∃ t u : State, let s := start [] 0x300 [0x80]
      s.mode ≠ .faulted ∧ exec (.drw 0 0 1) s = .next t ∧ t.mode ≠ .faulted ∧ u.fb = t.fb ∧ u.I = s.I ∧ u.cfg = s.cfg ∧
        u.reg 0 = s.reg 0 ∧ ∀ r, r < 1 → u.byteAt (s.I.toNat + r) = s.byteAt (s.I.toNat + r) :=
  ⟨after (.drw 0 0 1) (start [] 0x300 [0x80]), after (.drw 0 0 1) (start [] 0x300 [0x80]), by decide, rfl, by decide, rfl,
    by decide, by decide, by decide, fun r hr => by
      have : r = 0 := by omega
      subst this; decide⟩
theorem witness_KeySkipsTestOneKey :
    ((start [(0, 15)] 0 []).reg 0).toNat ≤ 15 ∧ 15 < ((start [(0, 16)] 0 []).reg 0).toNat := by decide
theorem witness_InstructionsWriteOnlyTheirMatrixCells :
    (∃ t, exec .cls State.reset = .next t) ∧ Element.V ∉ Instr.cls.writes ∧ Element.I ∉ Instr.cls.writes ∧
      Element.stack ∉ Instr.cls.writes ∧ Element.DT ∉ Instr.cls.writes ∧ Element.ST ∉ Instr.cls.writes ∧
      Element.wait ∉ Instr.cls.writes ∧ Element.mem ∉ Instr.cls.writes ∧ Element.rnd ∉ Instr.cls.writes ∧
      Element.fb ∉ Instr.ret.writes :=
  ⟨⟨_, rfl⟩, by decide, by decide, by decide, by decide, by decide, by decide, by decide, by decide, by decide⟩
theorem witness_OnlyNamedRegistersAreWritten :
    (∃ t, exec (.addImm 0 1) State.reset = .next t) ∧ ¬ (Instr.addImm 0 1).writesReg 15 :=
  ⟨⟨_, rfl⟩, by simp [Instr.writesReg]⟩
theorem witness_OnlyTheseEndACleanRun :
    ∃ t, State.reset.Clean ∧ State.reset.mode = .running ∧ step State.reset = .next t ∧ ¬ t.Clean :=
  ⟨stepped State.reset, ⟨by decide, by decide⟩, rfl, rfl, fun h => absurd h.2 (by decide)⟩

end Sys2Proof.Tests
end

section
/-! The statements of spec/20_memory.md. -/

namespace Sys2Proof.Machine

/-- Settles O5: a fetch in range answers the word of the two bytes at pc (`State.fetch_ok`), and that word's value is the
big-endian sum (`toNat_wordOfBytes`). -/
theorem fetchIsBigEndian : Obligations.FetchIsBigEndian := by
  intro s hInRange
  exact ⟨wordOfBytes (s.byteAt s.pc.toNat) (s.byteAt (s.pc.toNat + 1)), State.fetch_ok s hInRange, toNat_wordOfBytes _ _⟩

end Sys2Proof.Machine
end

section
/-! The statements of spec/30_encoding.md: what a mask of the opcode table keeps of a word, which words match a row, what
each family's decoder accepts, and the sub-step of an unknown opcode. -/

namespace Sys2Proof.Machine

/-! ### What a mask keeps (R94, R100) -/

/-- The mask of the forms `Onnn` and `Oxkk` keeps the family nibble. -/
theorem and_F000 (w : Word) : w &&& 0xF000 = formatA (topNibble w) 0 := by
  calc w &&& 0xF000
      = formatA (topNibble w) (fieldNnn w) &&& formatA (BitVec.allOnes 4) 0 := by rw [formatA_fields]; rfl
    _ = formatA (topNibble w) 0 := by
        unfold formatA
        rw [BitVec.and_append, BitVec.and_allOnes]
        simp

/-- The mask of the forms `OxyF` keeps the family nibble and the low nibble. -/
theorem and_F00F (w : Word) : w &&& 0xF00F = formatXY (topNibble w) 0 0 (lowNibble w) := by
  calc w &&& 0xF00F
      = formatXY (topNibble w) (fieldX w) (fieldY w) (lowNibble w) &&&
          formatXY (BitVec.allOnes 4) 0 0 (BitVec.allOnes 4) := by rw [formatXY_fields]; rfl
    _ = formatXY (topNibble w) 0 0 (lowNibble w) := by
        unfold formatXY
        rw [BitVec.and_append, BitVec.and_append, BitVec.and_append, BitVec.and_allOnes, BitVec.and_allOnes]
        simp

/-- The mask of the forms `OxFF` keeps the family nibble and the low byte. -/
theorem and_F0FF (w : Word) : w &&& 0xF0FF = formatXK (topNibble w) 0 (fieldKk w) := by
  calc w &&& 0xF0FF
      = formatXK (topNibble w) (fieldX w) (fieldKk w) &&&
          formatXK (BitVec.allOnes 4) 0 (BitVec.allOnes 8) := by rw [formatXK_fields]; rfl
    _ = formatXK (topNibble w) 0 (fieldKk w) := by
        unfold formatXK
        rw [BitVec.and_append, BitVec.and_append, BitVec.and_allOnes, BitVec.and_allOnes]
        simp

/-! ### Matching `(w AND mask) = match` by fields, one lemma per mask of the table -/

section Match

variable (w : Word) {v : Word}

/-- The family nibble stands beside the whole word, so that a row of family 0 is told from the other families' by it. -/
theorem and_FFFF_eq_iff : w &&& 0xFFFF = v ↔ topNibble w = topNibble v ∧ w = v := by
  have hAll : w &&& 0xFFFF = w := BitVec.and_allOnes
  rw [hAll]
  exact ⟨fun h => ⟨congrArg topNibble h, h⟩, And.right⟩

theorem and_F000_eq_iff (hv : v &&& 0xF000 = v) : w &&& 0xF000 = v ↔ topNibble w = topNibble v := by
  rw [← hv, and_F000, and_F000, topNibble_formatA]
  constructor
  · intro h
    simpa [topNibble_formatA] using congrArg topNibble h
  · intro hTop
    rw [hTop]

theorem and_F00F_eq_iff (hv : v &&& 0xF00F = v) :
    w &&& 0xF00F = v ↔ topNibble w = topNibble v ∧ lowNibble w = lowNibble v := by
  rw [← hv, and_F00F, and_F00F, topNibble_formatXY, lowNibble_formatXY]
  constructor
  · intro h
    exact ⟨by simpa [topNibble_formatXY] using congrArg topNibble h,
      by simpa [lowNibble_formatXY] using congrArg lowNibble h⟩
  · rintro ⟨hTop, hLow⟩
    rw [hTop, hLow]

theorem and_F0FF_eq_iff (hv : v &&& 0xF0FF = v) :
    w &&& 0xF0FF = v ↔ topNibble w = topNibble v ∧ fieldKk w = fieldKk v := by
  rw [← hv, and_F0FF, and_F0FF, topNibble_formatXK, fieldKk_formatXK]
  constructor
  · intro h
    exact ⟨by simpa [topNibble_formatXK] using congrArg topNibble h,
      by simpa [fieldKk_formatXK] using congrArg fieldKk h⟩
  · rintro ⟨hTop, hKk⟩
    rw [hTop, hKk]

end Match

/-! ### Fields of a literal word, and the fields a row is built from (R94) -/

theorem topNibble_ofNat (k : Nat) : topNibble (BitVec.ofNat 16 k) = BitVec.ofNat 4 (k / 4096) := by
  apply BitVec.eq_of_toNat_eq
  rw [toNat_topNibble]
  simp; omega

theorem lowNibble_ofNat (k : Nat) : lowNibble (BitVec.ofNat 16 k) = BitVec.ofNat 4 k := by
  apply BitVec.eq_of_toNat_eq
  simp [toNat_lowNibble]

theorem fieldKk_ofNat (k : Nat) : fieldKk (BitVec.ofNat 16 k) = BitVec.ofNat 8 k := by
  apply BitVec.eq_of_toNat_eq
  simp [toNat_fieldKk]

/-- The numbers a row of the table is built from are the decoder's own fields. -/
theorem OpcodeRow.instr_eq_build_fields (row : OpcodeRow) (w : Word) :
    row.instr w = row.build (fieldX w) (fieldY w) (fieldKk w) (fieldNnn w) (fieldN w) := by
  have hX : Fin.ofNat 16 (w.toNat / 256) = fieldX w := Fin.ext (val_fieldX w).symm
  have hY : Fin.ofNat 16 (w.toNat / 16) = fieldY w := Fin.ext (val_fieldY w).symm
  have hKk : BitVec.ofNat 8 w.toNat = fieldKk w := BitVec.eq_of_toNat_eq (toNat_fieldKk w).symm
  have hNnn : BitVec.ofNat 12 w.toNat = fieldNnn w := BitVec.eq_of_toNat_eq (toNat_fieldNnn w).symm
  have hN : w.toNat % 16 = fieldN w := (toNat_lowNibble w).symm
  rw [OpcodeRow.instr, hX, hY, hKk, hNnn, hN]

/-! ### The rows of each family against the family's decoder (R98, R99) -/

section Families

variable (w : Word) (i : Instr)

theorem decodeZero_ok_iff : decodeZero w = .ok i ↔ w = 0x00E0 ∧ .cls = i ∨ w = 0x00EE ∧ .ret = i := by
  unfold decodeZero
  split
  · simp [*]
  · split <;> simp [*]

theorem decodeKey_ok_iff : decodeKey w = .ok i ↔
    fieldKk w = 0x9E#8 ∧ .skp (fieldX w) = i ∨ fieldKk w = 0xA1#8 ∧ .sknp (fieldX w) = i := by
  unfold decodeKey
  split <;> simp_all

/-- Families 0 to 7 and 9 to D. In the branch of a family only that family's rows can match, by the family nibble. -/
theorem opcodeRowsPlain_iff : (∃ row ∈ opcodeRowsPlain, w &&& row.mask = row.value ∧ row.instr w = i) ↔
    topNibble w ∉ [0x8#4, 0xE#4, 0xF#4] ∧ decodeWord w = .ok i := by
  simp only [opcodeRowsPlain, List.exists_mem_cons_iff, List.not_mem_nil, false_and, exists_false, or_false,
    OpcodeRow.instr_eq_build_fields]
  simp (disch := decide) only [and_FFFF_eq_iff, and_F000_eq_iff, and_F00F_eq_iff]
  unfold decodeWord
  split <;> simp_all [topNibble_ofNat, lowNibble_ofNat, decodeZero_ok_iff, ite_eq_iff]

/-- Family 8: in the branch of a low nibble only the row with that low nibble can match. -/
theorem opcodeRowsAlu_iff : (∃ row ∈ opcodeRowsAlu, w &&& row.mask = row.value ∧ row.instr w = i) ↔
    topNibble w = 0x8 ∧ decodeAlu w = .ok i := by
  simp only [opcodeRowsAlu, List.exists_mem_cons_iff, List.not_mem_nil, false_and, exists_false, or_false,
    OpcodeRow.instr_eq_build_fields]
  simp (disch := decide) only [and_F00F_eq_iff]
  unfold decodeAlu
  split <;> simp_all [topNibble_ofNat, lowNibble_ofNat]

/-- Families E and F: in the branch of a low byte only the row with that low byte can match. -/
theorem opcodeRowsMisc_iff : (∃ row ∈ opcodeRowsMisc, w &&& row.mask = row.value ∧ row.instr w = i) ↔
    topNibble w = 0xE ∧ decodeKey w = .ok i ∨ topNibble w = 0xF ∧ decodeMisc w = .ok i := by
  simp only [opcodeRowsMisc, List.exists_mem_cons_iff, List.not_mem_nil, false_and, exists_false, or_false,
    OpcodeRow.instr_eq_build_fields]
  simp (disch := decide) only [and_F0FF_eq_iff]
  rw [decodeKey_ok_iff]
  unfold decodeMisc
  split <;> simp_all [topNibble_ofNat, fieldKk_ofNat, and_assoc, and_or_left]

/-- The three parts of the table put together: the family nibble says which of them the decoder follows. -/
theorem decodeWord_ok_iff_row :
    decodeWord w = .ok i ↔ ∃ row ∈ opcodeRows, w &&& row.mask = row.value ∧ row.instr w = i := by
  simp only [opcodeRows, List.mem_append, or_and_right, exists_or, opcodeRowsPlain_iff, opcodeRowsAlu_iff,
    opcodeRowsMisc_iff]
  by_cases h8 : topNibble w = 0x8
  · simp [decodeWord, h8]
  by_cases hE : topNibble w = 0xE
  · simp [decodeWord, hE]
  by_cases hF : topNibble w = 0xF
  · simp [decodeWord, hF]
  · simp_all

end Families

/-- Settles O3: the decoder accepts by rows (`decodeWord_ok_iff_row`), and refuses exactly where it does not accept. -/
theorem decoderFollowsOpcodeTable : Obligations.DecoderFollowsOpcodeTable := by
  refine ⟨decodeWord_ok_iff_row, fun w => ⟨?_, fun hNone => ?_⟩⟩
  · rintro ⟨r, hError⟩ row hRow hMatch
    have hOk : decodeWord w = .ok (row.instr w) := (decodeWord_ok_iff_row w _).2 ⟨row, hRow, hMatch, rfl⟩
    simp [hError] at hOk
  · cases hDecode : decodeWord w with
    | error r => exact ⟨r, rfl⟩
    | ok i =>
      obtain ⟨row, hRow, hMatch, _⟩ := (decodeWord_ok_iff_row w i).1 hDecode
      exact absurd hMatch (hNone row hRow)

/-! ### The sub-step of an unknown opcode (R105) -/

theorem subStep_of_unknownOpcode {s : State} {w : Word} {r : Reject} (hRunning : s.mode = .running)
    (hFetch : s.fetch = .ok w) (hDecode : decodeWord w = .error r) : subStep s = .next (s.reportDecodeError w) := by
  simp [subStep, hRunning, fetchExecute, hFetch, hDecode]

/-- Before the last sub-step of a tick that did not fault, the position moves by one and nothing else of the tick does. -/
theorem State.afterSubStep_of_phase_lt {s : State} (hMode : s.mode ≠ .faulted) (hPhase : s.phase + 1 < s.cfg.ipt) :
    s.afterSubStep = { s with phase := s.phase + 1, stage := .ticking } := by
  unfold State.afterSubStep
  split
  · contradiction
  · exact if_pos hPhase

/-- Settles O8: the sub-step answers `reportDecodeError`, whose record update is the frame the statement asks for. -/
theorem unknownOpcodeIsReportedAndSkipped : Obligations.UnknownOpcodeIsReportedAndSkipped := by
  rintro s w hRunning hFetch ⟨r, hDecode⟩
  have hNotFaulted : s.mode ≠ .faulted := by simp [hRunning]
  have hStep : step s = .next (s.reportDecodeError w).afterSubStep :=
    step_of_subStep hNotFaulted (subStep_of_unknownOpcode hRunning hFetch hDecode)
  refine ⟨s.reportDecodeError w, hStep, State.toNat_nextPc s.pc, rfl, rfl, fun _ => rfl, hRunning, fun hPhase => ?_⟩
  rw [State.afterSubStep_of_phase_lt (s := s.reportDecodeError w) hNotFaulted hPhase]
  rfl

end Sys2Proof.Machine
end

section
/-! The statements of spec/40_step_and_tick.md: what an instruction and a sub-step do to the timers, and what the end of
a tick does. -/

namespace Sys2Proof.Machine

/-! ### Only `Fx15` writes DT and only `Fx18` writes ST (R46, R128) -/

theorem Completed.timers_cases {i : Instr} {s t : State} (h : Completed i s t) :
    (t.DT = s.DT ∨ ∃ x, i = .ldDtVx x) ∧ (t.ST = s.ST ∨ ∃ x, i = .ldStVx x) := by
  cases i
  case ldDtVx x => cases h; exact ⟨.inr ⟨x, rfl⟩, .inl rfl⟩
  case ldStVx x => cases h; exact ⟨.inl rfl, .inr ⟨x, rfl⟩⟩
  case ret => obtain ⟨a, rest, _, rfl⟩ := h; simp
  case call => obtain ⟨_, rfl⟩ := h; simp
  case drw => obtain ⟨_, rfl⟩ := h; simp
  case skp => obtain ⟨_, rfl⟩ := h; simp
  case sknp => obtain ⟨_, rfl⟩ := h; simp
  case ldB => obtain ⟨_, _, rfl⟩ := h; simp
  case stRegs => obtain ⟨_, _, rfl⟩ := h; simp
  case ldRegs => obtain ⟨_, rfl⟩ := h; simp
  all_goals (cases h; simp)

theorem exec_timers_cases {i : Instr} {s t : State} (h : exec i s = .next t) :
    (t.DT = s.DT ∨ ∃ x, i = .ldDtVx x) ∧ (t.ST = s.ST ∨ ∃ x, i = .ldStVx x) := by
  rcases exec_inv h with hCompleted | ⟨r, rfl⟩
  · exact hCompleted.timers_cases
  · exact ⟨.inl rfl, .inl rfl⟩

theorem fetchExecute_timers_cases {s t : State} (h : fetchExecute s = .next t) :
    (t.DT = s.DT ∨ ∃ w x, s.fetch = .ok w ∧ decodeWord w = .ok (.ldDtVx x)) ∧
      (t.ST = s.ST ∨ ∃ w x, s.fetch = .ok w ∧ decodeWord w = .ok (.ldStVx x)) := by
  rcases fetchExecute_cases h with ⟨_, rfl⟩ | ⟨_, _, _, _, rfl⟩ | ⟨w, i, hFetch, hDecode, hExec⟩
  · exact ⟨.inl rfl, .inl rfl⟩
  · exact ⟨.inl rfl, .inl rfl⟩
  · obtain ⟨hDT, hST⟩ := exec_timers_cases hExec
    refine ⟨hDT.imp_right ?_, hST.imp_right ?_⟩ <;>
    · rintro ⟨x, rfl⟩
      exact ⟨w, x, hFetch, hDecode⟩

/-- A wake before the fetch changes neither the timers nor what is fetched. -/
theorem subStep_timers_cases {s t : State} (h : subStep s = .next t) :
    (t.DT = s.DT ∨ ∃ w x, s.fetch = .ok w ∧ decodeWord w = .ok (.ldDtVx x)) ∧
      (t.ST = s.ST ∨ ∃ w x, s.fetch = .ok w ∧ decodeWord w = .ok (.ldStVx x)) := by
  rcases subStep_cases h with ⟨_, rfl⟩ | ⟨_, _, rfl⟩ | ⟨_, hFetchExecute⟩ | ⟨_, k, _, hFetchExecute⟩
  · exact ⟨.inl rfl, .inl rfl⟩
  · exact ⟨.inl rfl, .inl rfl⟩
  · exact fetchExecute_timers_cases hFetchExecute
  · exact fetchExecute_timers_cases (s := s.wake k) hFetchExecute

/-! ### What `afterSubStep` does to the timers (R127, R128, R130) -/

theorem State.afterSubStep_of_faulted {s : State} (hMode : s.mode = .faulted) :
    s.afterSubStep = { s with phase := 0, stage := .ticking } := by
  simp [afterSubStep, hMode]

theorem State.afterSubStep_of_ipt_le {s : State} (hMode : s.mode ≠ .faulted) (hPhase : s.cfg.ipt ≤ s.phase + 1) :
    s.afterSubStep = s.endTick := by
  unfold State.afterSubStep
  split
  · contradiction
  · exact if_neg (Nat.not_lt.2 hPhase)

theorem toNat_timerDecay (t : TimerByte) : (timerDecay t).toNat = t.toNat - 1 := by
  unfold timerDecay
  split
  · simp [*]
  · bv_omega

theorem State.timers_afterSubStep_of_phase_lt {s : State} (hPhase : s.phase + 1 < s.cfg.ipt) :
    s.afterSubStep.DT = s.DT ∧ s.afterSubStep.ST = s.ST := by
  by_cases hMode : s.mode = .faulted
  · simp [afterSubStep_of_faulted hMode]
  · simp [afterSubStep_of_phase_lt hMode hPhase]

theorem State.timers_afterSubStep_of_ipt_le {s : State} (hMode : s.mode = .running) (hPhase : s.cfg.ipt ≤ s.phase + 1) :
    s.afterSubStep.DT.toNat = s.DT.toNat - 1 ∧ s.afterSubStep.ST.toNat = s.ST.toNat - 1 := by
  rw [afterSubStep_of_ipt_le (by simp [hMode]) hPhase]
  simp [hMode, toNat_timerDecay]

theorem State.timers_afterSubStep_of_not_running {s : State} (hMode : s.mode ≠ .running) :
    s.afterSubStep.DT = s.DT ∧ s.afterSubStep.ST = s.ST := by
  by_cases hPhase : s.phase + 1 < s.cfg.ipt
  · exact timers_afterSubStep_of_phase_lt hPhase
  by_cases hFaulted : s.mode = .faulted
  · simp [afterSubStep_of_faulted hFaulted]
  · simp [afterSubStep_of_ipt_le hFaulted (Nat.not_lt.1 hPhase), hMode]

/-- Settles O14: a sub-step keeps the position and IPT (`subStep_kept`), so the position before it says which case of
`afterSubStep` follows it; inside the sub-step `subStep_timers_cases` says what writes a timer. -/
theorem timersChangeOncePerTick : Obligations.TimersChangeOncePerTick := by
  intro s u hNotFaulted hSubStep
  obtain ⟨hCfg, _, _, _, hPhase, _, _⟩ := subStep_kept hSubStep
  obtain ⟨hDT, hST⟩ := subStep_timers_cases hSubStep
  rw [← hPhase, ← hCfg]
  exact ⟨u.afterSubStep, step_of_subStep hNotFaulted hSubStep, State.timers_afterSubStep_of_phase_lt,
    fun hIpt hRunning => State.timers_afterSubStep_of_ipt_le hRunning hIpt,
    State.timers_afterSubStep_of_not_running, hDT.resolve_right, hST.resolve_right⟩

end Sys2Proof.Machine
end

section
/-! The statements of spec/41_flow.md: what a skip leaves, said once for all skip instructions, and the jump. -/

namespace Sys2Proof.Machine

/-! ### A skip: the advance of the fetch, and a second one when it is taken (R149) -/

theorem State.toNat_pc_advance_skipIf (s : State) (taken : Bool) :
    (s.advance.skipIf taken).pc.toNat = (s.pc.toNat + if taken then 4 else 2) % 65536 := by
  cases taken with
  | false => exact toNat_nextPc s.pc
  | true =>
    calc (nextPc (nextPc s.pc)).toNat
        = ((s.pc.toNat + 2) % 65536 + 2) % 65536 := by rw [toNat_nextPc, toNat_nextPc]
      _ = (s.pc.toNat + 4) % 65536 := by omega

theorem onlyPc_advance_skipIf (s : State) (taken : Bool) : OnlyPc s (s.advance.skipIf taken) := ⟨rfl, fun _ => rfl⟩

/-- What a skip instruction has to show: that it completes with `skipIf`, and what its condition means. -/
theorem skipsWhen_of_exec {i : Instr} {s : State} {taken : Bool} {cond : Prop}
    (hExec : exec i s = .next (s.advance.skipIf taken)) (hTaken : taken = true ↔ cond) : SkipsWhen cond i s := by
  refine ⟨s.advance.skipIf taken, hExec, fun hCond => ?_, fun hNotCond => ?_, onlyPc_advance_skipIf s taken⟩
  · rw [State.toNat_pc_advance_skipIf, if_pos (hTaken.2 hCond)]
  · rw [State.toNat_pc_advance_skipIf, if_neg (mt hTaken.1 hNotCond)]

/-! ### The two comparisons of bytes (R145, R146, R148) -/

theorem decide_eq_iff_toNat_eq (a b : Byte) : decide (a = b) = true ↔ a.toNat = b.toNat :=
  decide_eq_true_iff.trans BitVec.toNat_inj.symm

theorem decide_ne_iff_toNat_ne (a b : Byte) : decide (a ≠ b) = true ↔ a.toNat ≠ b.toNat :=
  decide_eq_true_iff.trans BitVec.toNat_ne_iff_ne.symm

/-- Settles O31: both forms complete with `skipIf` of their comparison (`skipsWhen_of_exec`). -/
theorem skipOnImmediate : Obligations.SkipOnImmediate := fun s x kk =>
  ⟨skipsWhen_of_exec rfl (decide_eq_iff_toNat_eq (s.reg x) kk),
    skipsWhen_of_exec rfl (decide_ne_iff_toNat_ne (s.reg x) kk)⟩

/-- Settles O32: the comparison of `4xkk` with V[y] in the place of kk. -/
theorem skipOnUnequalRegisters : Obligations.SkipOnUnequalRegisters := fun s x y =>
  skipsWhen_of_exec rfl (decide_ne_iff_toNat_ne (s.reg x) (s.reg y))

/-! ### The jump (R142) -/

theorem exec_jp (s : State) (nnn : BitVec 12) : exec (.jp nnn) s = .next (s.setPc (zextAddr nnn)) := rfl

/-- Settles O26: the jump is one `setPc` (`exec_jp`), and a zero-extended nnn keeps its value (`toNat_zextAddr`). -/
theorem jumpSetsPc : Obligations.JumpSetsPc := fun s nnn =>
  ⟨s.setPc (zextAddr nnn), exec_jp s nnn, toNat_zextAddr nnn, rfl, fun _ => rfl⟩

end Sys2Proof.Machine
end

section
/-! The statements of spec/42_alu.md: what one register write after the advance leaves, and what the load, copy, add and
logic forms write. -/

namespace Sys2Proof.Machine

/-! ### One register written after the advance of the fetch (R160) -/

theorem sameRegsExcept_advance_setReg (s : State) (x : Reg) (b : Byte) :
    SameRegsExcept [x] s (s.advance.setReg x b) :=
  fun _ hr => s.advance.reg_setReg_ne b (List.ne_of_not_mem_cons hr)

theorem onlyRegsAndPc_advance_setReg (s : State) (x : Reg) (b : Byte) : OnlyRegsAndPc s (s.advance.setReg x b) :=
  ⟨rfl, s.advance.byteAt_setReg x b⟩

/-- What an instruction with one destination and no flag has to show: that it completes with that one `setReg`. -/
theorem writesOneReg_of_exec {i : Instr} {s : State} {x : Reg} {b : Byte}
    (hExec : exec i s = .next (s.advance.setReg x b)) : WritesOneReg i s x b :=
  ⟨s.advance.setReg x b, hExec, State.toNat_nextPc s.pc, s.advance.reg_setReg_self x b,
    sameRegsExcept_advance_setReg s x b, onlyRegsAndPc_advance_setReg s x b⟩

/-- Settles O34: each form completes with one `setReg` (`writesOneReg_of_exec`), of the sum modulo 256
(`BitVec.toNat_add`) or of the bitwise operation. -/
theorem loadAddCopyAndLogicWriteOneRegister : Obligations.LoadAddCopyAndLogicWriteOneRegister := fun s x y kk =>
  ⟨writesOneReg_of_exec rfl,
    ⟨s.reg x + kk, BitVec.toNat_add _ _, writesOneReg_of_exec rfl⟩,
    writesOneReg_of_exec rfl,
    ⟨s.reg x ||| s.reg y, fun _ _ => BitVec.getLsbD_or, writesOneReg_of_exec rfl⟩,
    ⟨s.reg x &&& s.reg y, fun _ _ => BitVec.getLsbD_and, writesOneReg_of_exec rfl⟩,
    ⟨s.reg x ^^^ s.reg y, fun _ _ => BitVec.getLsbD_xor, writesOneReg_of_exec rfl⟩⟩

end Sys2Proof.Machine
end

section
/-! The statements of spec/43_index_memory.md section 2: what an instruction that writes I leaves unchanged. -/

namespace Sys2Proof.Machine

/-! ### I loaded with an immediate (R180) -/

theorem exec_ldI (s : State) (nnn : BitVec 12) : exec (.ldI nnn) s = .next (s.advance.setI (zextAddr nnn)) := rfl

theorem sameMemory_advance_setI (s : State) (v : Word) : SameMemory s (s.advance.setI v) := fun _ => rfl

/-- Settles O39: `Annn` is one `setI` after the advance of the fetch (`exec_ldI`), and a zero-extended nnn keeps its
value (`toNat_zextAddr`). -/
theorem loadIndexImmediate : Obligations.LoadIndexImmediate := fun s nnn =>
  ⟨s.advance.setI (zextAddr nnn), exec_ldI s nnn, State.toNat_nextPc s.pc, toNat_zextAddr nnn, rfl,
    sameMemory_advance_setI s _⟩

end Sys2Proof.Machine
end

section
/-! The statements of spec/44_display.md: what one `SetPixel` shows and reports, and the clear. -/

namespace Sys2Proof.Machine

/-! ### `SetPixel` (R190) -/

theorem FrameBuffer.pixel_setPixel_self (fb : FrameBuffer) (cx cy : Nat) (value : Bool) :
    (fb.setPixel cx cy value).1.pixel cx cy = (fb.pixel cx cy ^^ value) :=
  (fb.pixel_put cx cy cx cy _).trans (if_pos ⟨rfl, rfl⟩)

theorem FrameBuffer.pixel_setPixel_of_ne (fb : FrameBuffer) {cx cy px py : Nat} (value : Bool)
    (hOther : ¬ (px % hw.fbW = cx % hw.fbW ∧ py % hw.fbH = cy % hw.fbH)) :
    (fb.setPixel cx cy value).1.pixel px py = fb.pixel px py :=
  (fb.pixel_put cx cy px py _).trans (if_neg hOther)

theorem FrameBuffer.setPixel_hit_iff (fb : FrameBuffer) (cx cy : Nat) (value : Bool) :
    (fb.setPixel cx cy value).2 = true ↔
      fb.pixel cx cy = true ∧ (fb.setPixel cx cy value).1.pixel cx cy = false := by
  rw [pixel_setPixel_self]
  show (fb.pixel cx cy && value) = true ↔ _
  cases fb.pixel cx cy <;> cases value <;> decide

theorem FrameBuffer.put_mod (fb : FrameBuffer) (cx cy : Nat) (b : Bool) :
    fb.put (cx % hw.fbW) (cy % hw.fbH) b = fb.put cx cy b :=
  ext_pixel fun px py => by simp only [pixel_put, Nat.mod_mod]

theorem FrameBuffer.setPixel_mod (fb : FrameBuffer) (cx cy : Nat) (value : Bool) :
    fb.setPixel (cx % hw.fbW) (cy % hw.fbH) value = fb.setPixel cx cy value := by
  rw [setPixel, setPixel, pixel_mod, put_mod]

/-- Settles O47: the cell itself, every other cell, the report and the wrap, each a lemma about `setPixel`. -/
theorem setPixelXorsOneCell : Obligations.SetPixelXorsOneCell := fun fb cx cy value =>
  ⟨fb.pixel_setPixel_self cx cy value, fun _ _ hOther => fb.pixel_setPixel_of_ne value hOther,
    fb.setPixel_hit_iff cx cy value, fb.setPixel_mod cx cy value⟩

/-! ### The clear (R193) -/

theorem exec_cls (s : State) : exec .cls s = .next (s.advance.setFb FrameBuffer.clear) := rfl

theorem sameMemory_advance_setFb (s : State) (fb : FrameBuffer) : SameMemory s (s.advance.setFb fb) := fun _ => rfl

/-- Settles O46: `00E0` is one `setFb` after the advance of the fetch (`exec_cls`), and the clear framebuffer shows no
pixel (`FrameBuffer.pixel_clear`). -/
theorem clearScreenClearsEveryPixel : Obligations.ClearScreenClearsEveryPixel := fun s =>
  ⟨s.advance.setFb FrameBuffer.clear, exec_cls s, State.toNat_nextPc s.pc, FrameBuffer.pixel_clear, rfl,
    sameMemory_advance_setFb s _⟩

end Sys2Proof.Machine
end

section
/-! The statements of spec/30_encoding.md on the round trip between words and instructions. -/

namespace Sys2Proof.Machine

/-! ### Decoding an encoded instruction -/

theorem decodeWord_encode {i : Instr} (h : i.wellFormed = true) : decodeWord (encode i) = .ok i := by
  cases i with
  | cls => exact Laws.RoundTrip.cls h
  | ret => exact Laws.RoundTrip.ret h
  | jp nnn => exact Laws.RoundTrip.jp nnn h
  | call nnn => exact Laws.RoundTrip.call nnn h
  | seImm x kk => exact Laws.RoundTrip.seImm x kk h
  | sneImm x kk => exact Laws.RoundTrip.sneImm x kk h
  | seReg x y => exact Laws.RoundTrip.seReg x y h
  | ldImm x kk => exact Laws.RoundTrip.ldImm x kk h
  | addImm x kk => exact Laws.RoundTrip.addImm x kk h
  | ldReg x y => exact Laws.RoundTrip.ldReg x y h
  | orReg x y => exact Laws.RoundTrip.orReg x y h
  | andReg x y => exact Laws.RoundTrip.andReg x y h
  | xorReg x y => exact Laws.RoundTrip.xorReg x y h
  | addReg x y => exact Laws.RoundTrip.addReg x y h
  | subReg x y => exact Laws.RoundTrip.subReg x y h
  | shr x y => exact Laws.RoundTrip.shr x y h
  | subnReg x y => exact Laws.RoundTrip.subnReg x y h
  | shl x y => exact Laws.RoundTrip.shl x y h
  | sneReg x y => exact Laws.RoundTrip.sneReg x y h
  | ldI nnn => exact Laws.RoundTrip.ldI nnn h
  | jpV0 nnn => exact Laws.RoundTrip.jpV0 nnn h
  | rnd x kk => exact Laws.RoundTrip.rnd x kk h
  | drw x y n => exact Laws.RoundTrip.drw x y n h
  | skp x => exact Laws.RoundTrip.skp x h
  | sknp x => exact Laws.RoundTrip.sknp x h
  | ldVxDt x => exact Laws.RoundTrip.ldVxDt x h
  | ldVxK x => exact Laws.RoundTrip.ldVxK x h
  | ldDtVx x => exact Laws.RoundTrip.ldDtVx x h
  | ldStVx x => exact Laws.RoundTrip.ldStVx x h
  | addI x => exact Laws.RoundTrip.addI x h
  | ldF x => exact Laws.RoundTrip.ldF x h
  | ldB x => exact Laws.RoundTrip.ldB x h
  | stRegs x => exact Laws.RoundTrip.stRegs x h
  | ldRegs x => exact Laws.RoundTrip.ldRegs x h

/-- Settles O1: the two bytes of a word are read as that word whatever follows (`decodeBytes_bytesOfWord`), and the word
of a well-formed instruction decodes to it (`decodeWord_encode`). -/
theorem encodedBytesDecodeBack : Obligations.EncodedBytesDecodeBack := by
  intro i rest hWellFormed
  rw [encodeBytes, decodeBytes_bytesOfWord, decodeWord_encode hWellFormed]

/-! ### A word of each format is the format of its fields (R93, R94) -/

section Formats

variable {w : Word} {op f : BitVec 4} {kk : Byte}

theorem formatA_of_topNibble (hTop : topNibble w = op) : formatA op (fieldNnn w) = w :=
  hTop ▸ formatA_fields w

theorem formatXK_of_topNibble (hTop : topNibble w = op) : formatXK op (fieldX w) (fieldKk w) = w :=
  hTop ▸ formatXK_fields w

theorem formatXF_of_topNibble (hTop : topNibble w = op) (hKk : fieldKk w = kk) : formatXF op (fieldX w) kk = w :=
  hKk ▸ formatXK_of_topNibble hTop

theorem formatXY_of_topNibble (hTop : topNibble w = op) (hLow : lowNibble w = f) :
    formatXY op (fieldX w) (fieldY w) f = w :=
  hTop ▸ hLow ▸ formatXY_fields w

end Formats

/-! ### A decoded instruction, family by family (R98, R99): its word, and that it is well formed -/

section Families

variable {w : Word} {i : Instr}

theorem encode_and_wellFormed_of_decodeZero (h : decodeZero w = .ok i) : encode i = w ∧ i.wellFormed = true := by
  rcases (decodeZero_ok_iff w i).1 h with ⟨rfl, rfl⟩ | ⟨rfl, rfl⟩ <;> exact ⟨rfl, rfl⟩

theorem encode_and_wellFormed_of_decodeAlu (hTop : topNibble w = 0x8) (h : decodeAlu w = .ok i) :
    encode i = w ∧ i.wellFormed = true := by
  unfold decodeAlu at h
  split at h <;> cases h <;> exact ⟨formatXY_of_topNibble hTop ‹_›, rfl⟩

theorem encode_and_wellFormed_of_decodeKey (hTop : topNibble w = 0xE) (h : decodeKey w = .ok i) :
    encode i = w ∧ i.wellFormed = true := by
  rcases (decodeKey_ok_iff w i).1 h with ⟨hKk, rfl⟩ | ⟨hKk, rfl⟩ <;> exact ⟨formatXF_of_topNibble hTop hKk, rfl⟩

theorem encode_and_wellFormed_of_decodeMisc (hTop : topNibble w = 0xF) (h : decodeMisc w = .ok i) :
    encode i = w ∧ i.wellFormed = true := by
  unfold decodeMisc at h
  split at h <;> cases h <;> exact ⟨formatXF_of_topNibble hTop ‹_›, rfl⟩

/-- The one instruction with a count: a height cut out of four bits is below 16. -/
theorem encode_and_wellFormed_drw (hTop : topNibble w = 0xD) :
    encode (.drw (fieldX w) (fieldY w) (fieldN w)) = w ∧ (Instr.drw (fieldX w) (fieldY w) (fieldN w)).wellFormed = true := by
  have hLow : lowNibble w = BitVec.ofNat 4 (fieldN w) := by simp [fieldN]
  exact ⟨formatXY_of_topNibble hTop hLow, decide_eq_true (lowNibble w).isLt⟩

/-- The branches are those of the family nibble, 0x0 to 0xF in order and then none. -/
theorem encode_and_wellFormed_of_decodeWord (h : decodeWord w = .ok i) : encode i = w ∧ i.wellFormed = true := by
  unfold decodeWord at h
  split at h
  case h_1 => exact encode_and_wellFormed_of_decodeZero h
  case h_9 hTop => exact encode_and_wellFormed_of_decodeAlu hTop h
  case h_14 hTop => cases h; exact encode_and_wellFormed_drw hTop
  case h_15 hTop => exact encode_and_wellFormed_of_decodeKey hTop h
  case h_16 hTop => exact encode_and_wellFormed_of_decodeMisc hTop h
  case h_17 => cases h
  case h_6 hTop | h_10 hTop =>
    split at h <;> cases h
    exact ⟨formatXY_of_topNibble hTop ‹_›, rfl⟩
  case h_2 hTop | h_3 hTop | h_11 hTop | h_12 hTop => cases h; exact ⟨formatA_of_topNibble hTop, rfl⟩
  all_goals
    cases h
    exact ⟨formatXK_of_topNibble ‹_›, rfl⟩

theorem encode_of_decodeWord (h : decodeWord w = .ok i) : encode i = w := (encode_and_wellFormed_of_decodeWord h).1

end Families

/-- Settles O2: each branch of the decoder gives an instruction whose format is made of the fields of the word. -/
theorem decodedWordEncodesBack : Obligations.DecodedWordEncodesBack := fun _ _ => encode_and_wellFormed_of_decodeWord

/-- Settles O4: nine words, each evaluated by the decoder. -/
theorem sampleWordsDecode : Obligations.SampleWordsDecode := by
  unfold Obligations.SampleWordsDecode
  decide

end Sys2Proof.Machine
end

section
/-! The statements of spec/10_state.md sections 2, 3 and 12: what a completed instruction keeps, said once for all. -/

namespace Sys2Proof.Machine

/-! ### The registers a completed instruction keeps (10_state.md sections 2 and 3) -/

theorem reg_setReg_setReg_of_ne {s : State} {x y r : Reg} {a b : Byte} (h : ¬ (r = x ∨ r = y)) :
    ((s.setReg x a).setReg y b).reg r = s.reg r := by
  rw [not_or] at h
  rw [State.reg_setReg_ne _ _ h.2, State.reg_setReg_ne _ _ h.1]

theorem reg_setRegsFrom_of_lt {s : State} {x r : Reg} {bytes : List Byte} (hLength : bytes.length = x.val + 1)
    (hAbove : x.val < r.val) : (s.setRegsFrom 0 bytes).reg r = s.reg r := by
  have := reg_lt x
  rw [State.reg_setRegsFrom s 0 bytes r (by omega), dif_neg (by omega)]

theorem Completed.reg_of_not_writesReg {i : Instr} {s t : State} {r : Reg} (h : Completed i s t)
    (hr : ¬ i.writesReg r) : t.reg r = s.reg r := by
  cases i
  case ret => obtain ⟨a, rest, _, rfl⟩ := h; rfl
  case call => obtain ⟨_, rfl⟩ := h; rfl
  case skp | sknp => obtain ⟨_, rfl⟩ := h; rfl
  case drw => obtain ⟨_, rfl⟩ := h; exact State.reg_setReg_ne _ _ hr
  case ldB | stRegs => obtain ⟨_, _, rfl⟩ := h; exact State.reg_congr (State.pokeAll_V _ _ _) r
  case ldRegs x => obtain ⟨_, rfl⟩ := h; exact reg_setRegsFrom_of_lt (by simp) (Nat.not_le.1 hr)
  case ldImm | addImm | ldReg | orReg | andReg | xorReg | rnd | ldVxDt => cases h; exact State.reg_setReg_ne _ _ hr
  case addReg => cases h; exact reg_setReg_setReg_of_ne hr
  case subReg | shr | subnReg | shl => cases h; exact reg_setReg_setReg_of_ne (mt Or.symm hr)
  all_goals (cases h; rfl)

/-- Settles O54: a completed instruction keeps the registers it does not name, a fatal condition keeps all of them. -/
theorem onlyNamedRegistersAreWritten : Obligations.OnlyNamedRegistersAreWritten := by
  intro i s t r hExec hr
  rcases exec_inv hExec with hCompleted | ⟨_, rfl⟩
  · exact hCompleted.reg_of_not_writesReg hr
  · rfl

/-! ### The columns a completed instruction keeps (R46) -/

/-- What a completed instruction keeps: each column of the access matrix its row does not mark, and the fault record.
Of the two marked columns the invariant speaks of, STACK and MEM, it says how they are written. -/
structure CompletedFrame (i : Instr) (s t : State) : Prop where
  I      : Element.I ∉ i.writes → t.I = s.I
  stack  : t.stack = s.stack ∨ Element.stack ∈ i.writes ∧
    (t.stack = s.stack.tail ∨ s.stackIsFull = false ∧ ∃ a, t.stack = a :: s.stack)
  DT     : Element.DT ∉ i.writes → t.DT = s.DT
  ST     : Element.ST ∉ i.writes → t.ST = s.ST
  wait   : t.keydest = s.keydest ∧ t.mode = s.mode ∨ t.mode = .blockedOnKey ∧ ∃ x, i = .ldVxK x
  mem    : t.mem = s.mem ∨ Element.mem ∈ i.writes ∧
    ∃ base bytes, fontEnd ≤ base ∧ base + bytes.length ≤ s.cfg.memSize ∧ t.mem = (s.pokeAll base bytes).mem
  fb     : Element.fb ∉ i.writes → t.fb = s.fb
  rnd    : Element.rnd ∉ i.writes → t.rndTape = s.rndTape ∧ t.draws = s.draws
  record : t.fcause = s.fcause ∧ t.fpc = s.fpc ∧ t.fopc = s.fopc

/-- A block store does not read pc. -/
theorem pokeAll_advance_mem (s : State) (base : Nat) (bytes : List Byte) :
    (s.advance.pokeAll base bytes).mem = (s.pokeAll base bytes).mem := by
  induction bytes generalizing s base with
  | nil => rfl
  | cons b bs ih => exact ih (s.poke base b) (base + 1)

theorem completedFrame_pokeAll {i : Instr} {s : State} {base : Nat} {bytes : List Byte} (hi : Element.mem ∈ i.writes)
    (hFont : fontEnd ≤ base) (hEnd : base + bytes.length ≤ s.cfg.memSize) :
    CompletedFrame i s (s.advance.pokeAll base bytes) where
  I := by simp
  stack := by simp
  DT := by simp
  ST := by simp
  wait := by simp
  mem := .inr ⟨hi, base, bytes, hFont, hEnd, pokeAll_advance_mem s base bytes⟩
  fb := by simp
  rnd := by simp
  record := by simp

theorem Completed.frame {i : Instr} {s t : State} (h : Completed i s t) : CompletedFrame i s t := by
  cases i
  case ret => obtain ⟨a, rest, hStack, rfl⟩ := h; constructor <;> simp [Instr.writes, hStack]
  case call => obtain ⟨hNotFull, rfl⟩ := h; constructor <;> simp [Instr.writes, hNotFull]
  case drw | skp | sknp | ldRegs => obtain ⟨_, rfl⟩ := h; constructor <;> simp [Instr.writes]
  case ldB | stRegs =>
    obtain ⟨hFont, hEnd, rfl⟩ := h
    exact completedFrame_pokeAll List.mem_cons_self hFont (by simpa [bcdDigits] using hEnd)
  all_goals (cases h; constructor <;> simp [Instr.writes])

theorem CompletedFrame.mode_ne_faulted {i : Instr} {s t : State} (h : CompletedFrame i s t) (hs : s.mode ≠ .faulted) :
    t.mode ≠ .faulted := by
  rcases h.wait with ⟨_, hMode⟩ | ⟨hMode, _⟩
  · rwa [hMode]
  · simp [hMode]

theorem not_writesReg_of_V_not_mem_writes {i : Instr} (h : Element.V ∉ i.writes) (r : Reg) : ¬ i.writesReg r := by
  cases i <;> simp_all [Instr.writes, Instr.writesReg]

/-- Settles O53: the fields no instruction writes are `exec_kept`'s, the columns of a completed instruction are those of
`Completed.frame`, and a fatal condition writes MODE and the fault record only. -/
theorem instructionsWriteOnlyTheirMatrixCells : Obligations.InstructionsWriteOnlyTheirMatrixCells := by
  intro i s t hExec
  obtain ⟨hCfg, hDiag, hKeyTape, hTickNo, hPhase, hFrames, hStage⟩ := exec_kept hExec
  have hRegs : Element.V ∉ i.writes → ∀ r, t.reg r = s.reg r := fun hV r =>
    onlyNamedRegistersAreWritten i s t r hExec (not_writesReg_of_V_not_mem_writes hV r)
  rcases exec_inv hExec with hCompleted | ⟨r, rfl⟩
  · obtain ⟨hI, hStack, hDT, hST, hWait, hMem, hFb, hRnd, hRecord⟩ := hCompleted.frame
    refine ⟨hRegs, hI, fun h => hStack.resolve_right fun h' => h h'.1, hDT, hST, fun h => ?_,
      fun h => State.byteAt_congr (hMem.resolve_right fun h' => h h'.1) hCfg, hFb, hRnd, fun _ => hRecord, hDiag, hCfg,
      hKeyTape, hTickNo, hPhase, hFrames, hStage⟩
    rcases hWait with ⟨hKeydest, hMode⟩ | ⟨_, x, rfl⟩
    · exact ⟨hKeydest, .inl hMode⟩
    · exact absurd List.mem_cons_self h
  · simp [SameMemory, State.reg]

end Sys2Proof.Machine
end

section
/-! The statements of spec/60_exceptions.md: the causes of R221 against what `exec` answers. -/

namespace Sys2Proof.Machine

/-! ### A raise -/

/-- What an instruction that raises has to show: that it takes the fatal condition of that cause. Its word is every word
that decodes to it (`encode_of_decodeWord`). -/
theorem raises_of_exec {i : Instr} {s : State} {r : Raise} (hExec : exec i s = .next (s.takeFatal r (encode i))) :
    Raises i s r.cause :=
  ⟨s.takeFatal r (encode i), hExec, rfl, fun _ hDecode => encode_of_decodeWord hDecode, fun _ => rfl⟩

theorem stackIsFull_eq_false_iff (s : State) :
    s.stackIsFull = false ↔ ∀ d, s.cfg.stackDepth = some d → s.stack.length < d := by
  unfold State.stackIsFull
  cases s.cfg.stackDepth <;> simp

theorem stackIsFull_eq_true_iff (s : State) :
    s.stackIsFull = true ↔ ∃ d, s.cfg.stackDepth = some d ∧ d ≤ s.stack.length := by
  unfold State.stackIsFull
  cases s.cfg.stackDepth <;> simp

/-! ### The table of R221 decides what an instruction does -/

/-- `i` completes in `s` where the table gives no cause, and raises the cause the table gives otherwise. -/
def FollowsTable (i : Instr) (s : State) : Prop :=
  (i.fatalCause s = .none ∧ ∃ t, exec i s = .next t ∧ Completed i s t) ∨
    ∃ r : Raise, i.fatalCause s = r.cause ∧ r.cause ≠ .fetchOor ∧ exec i s = .next (s.takeFatal r (encode i))

theorem fatalCause_call (nnn : BitVec 12) (s : State) :
    (Instr.call nnn).fatalCause s = if s.stackIsFull then .stackFull else .none := by
  unfold State.stackIsFull
  cases h : s.cfg.stackDepth <;> simp [Instr.fatalCause, h]

/-- The key tests raise exactly when the index is above 15. -/
theorem followsTable_of_keyTest {i : Instr} {s t : State} {index : Nat}
    (hCause : i.fatalCause s = if 15 < index then .keyIndex else .none)
    (hOk : index ≤ 15 → exec i s = .next t ∧ Completed i s t)
    (hRaise : 15 < index → ∃ k, exec i s = .next (s.takeFatal (.keyIndex k) (encode i))) : FollowsTable i s := by
  by_cases hIndex : 15 < index
  · obtain ⟨k, hExec⟩ := hRaise hIndex
    exact .inr ⟨.keyIndex k, hCause.trans (if_pos hIndex), by simp [Raise.cause], hExec⟩
  · exact .inl ⟨hCause.trans (if_neg hIndex), t, hOk (Nat.not_lt.1 hIndex)⟩

/-- What a store of the bytes at I to I + last can answer: the state `t`, or a raise, by the range check first and the
font check second (20_memory.md R67). -/
def StoreAnswers (i : Instr) (s t : State) (last : Nat) : Prop :=
  (fontEnd ≤ s.dataBase ∧ s.dataBase + (last + 1) ≤ s.cfg.memSize ∧ exec i s = .next t) ∨
    (s.cfg.memSize < s.dataBase + (last + 1) ∧ ∃ a, exec i s = .next (s.takeFatal (.memWriteOor a) (encode i))) ∨
    (s.dataBase + (last + 1) ≤ s.cfg.memSize ∧ s.dataBase < fontEnd ∧
      ∃ a, exec i s = .next (s.takeFatal (.fontWrite a) (encode i)))

theorem storeAnswers_ldB (x : Reg) (s : State) :
    StoreAnswers (.ldB x) s (s.advance.pokeAll s.dataBase (bcdDigits (s.reg x))) 2 :=
  exec_ldB_cases x s

theorem storeAnswers_stRegs (x : Reg) (s : State) :
    StoreAnswers (.stRegs x) s (s.advance.pokeAll s.dataBase (s.regsUpTo x)) x.val :=
  exec_stRegs_cases x s

namespace StoreAnswers

variable {i : Instr} {s t : State} {last : Nat} (h : StoreAnswers i s t last)

include h

theorem completes (hFont : fontEnd ≤ s.dataBase) (hEnd : s.dataBase + last < s.cfg.memSize) : exec i s = .next t := by
  rcases h with ⟨_, _, hExec⟩ | ⟨hPast, _⟩ | ⟨_, hBelow, _⟩
  · exact hExec
  · omega
  · omega

theorem raises_memWriteOor (hPast : s.cfg.memSize ≤ s.dataBase + last) : Raises i s .memWriteOor := by
  rcases h with ⟨_, hEnd, _⟩ | ⟨_, _, hExec⟩ | ⟨hEnd, _⟩
  · omega
  · exact raises_of_exec hExec
  · omega

theorem raises_fontWrite (hFont : s.dataBase < fontEnd) (hEnd : s.dataBase + last < s.cfg.memSize) :
    Raises i s .fontWrite := by
  rcases h with ⟨hAbove, _⟩ | ⟨hPast, _⟩ | ⟨_, _, _, hExec⟩
  · omega
  · omega
  · exact raises_of_exec hExec

theorem followsTable
    (hCause : i.fatalCause s = if s.cfg.memSize ≤ s.dataBase + last then .memWriteOor
      else if s.dataBase ≤ 0x04F then .fontWrite else .none)
    (hCompleted : fontEnd ≤ s.dataBase → s.dataBase + (last + 1) ≤ s.cfg.memSize → Completed i s t) :
    FollowsTable i s := by
  have hFontEnd : fontEnd = 0x050 := rfl
  rcases h with ⟨hFont, hEnd, hExec⟩ | ⟨hEnd, a, hExec⟩ | ⟨hEnd, hFont, a, hExec⟩
  · refine .inl ⟨?_, t, hExec, hCompleted hFont hEnd⟩
    rw [hCause, if_neg (by omega), if_neg (by omega)]
  · refine .inr ⟨.memWriteOor a, ?_, by simp [Raise.cause], hExec⟩
    rw [hCause, if_pos (by omega)]
    rfl
  · refine .inr ⟨.fontWrite a, ?_, by simp [Raise.cause], hExec⟩
    rw [hCause, if_neg (by omega), if_pos (by omega)]
    rfl

end StoreAnswers

theorem followsTable (i : Instr) (s : State) : FollowsTable i s := by
  have hBase : s.dataBase = s.I.toNat := rfl
  cases i
  case ret =>
    cases hStack : s.stack with
    | nil => exact .inr ⟨.stackEmpty, if_pos (by simp [hStack]), by decide, exec_ret_nil hStack⟩
    | cons a rest => exact .inl ⟨if_neg (by simp [hStack]), _, exec_ret_cons hStack, a, rest, hStack, rfl⟩
  case call nnn =>
    cases hFull : s.stackIsFull
    · exact .inl ⟨by simp [fatalCause_call, hFull], _, exec_call_ok hFull, hFull, rfl⟩
    · exact .inr ⟨.stackFull, by simp [fatalCause_call, hFull, Raise.cause], by decide, exec_call_full hFull⟩
  case drw x y n =>
    rcases exec_drw_cases x y n s with ⟨hRange, hExec⟩ | ⟨hn, hEnd, a, hExec⟩
    · exact .inl ⟨if_neg (by omega), _, hExec, hRange, rfl⟩
    · exact .inr ⟨.memReadOor a, if_pos (by omega), by simp [Raise.cause], hExec⟩
  case skp x => exact followsTable_of_keyTest rfl (fun h => ⟨exec_skp_ok h, h, rfl⟩) exec_skp_raise
  case sknp x => exact followsTable_of_keyTest rfl (fun h => ⟨exec_sknp_ok h, h, rfl⟩) exec_sknp_raise
  case ldB x => exact (storeAnswers_ldB x s).followsTable rfl fun hFont hEnd => ⟨hFont, hEnd, rfl⟩
  case stRegs x => exact (storeAnswers_stRegs x s).followsTable rfl fun hFont hEnd => ⟨hFont, hEnd, rfl⟩
  case ldRegs x =>
    rcases exec_ldRegs_cases x s with ⟨hEnd, hExec⟩ | ⟨hEnd, a, hExec⟩
    · exact .inl ⟨if_neg (by omega), _, hExec, hEnd, rfl⟩
    · exact .inr ⟨.memReadOor a, if_pos (by omega), by simp [Raise.cause], hExec⟩
  all_goals exact .inl ⟨rfl, _, rfl, rfl⟩

/-- The same of a next state that `exec` answered. -/
theorem exec_followsTable {i : Instr} {s t : State} (h : exec i s = .next t) :
    (i.fatalCause s = .none ∧ Completed i s t) ∨
      ∃ r : Raise, i.fatalCause s = r.cause ∧ r.cause ≠ .fetchOor ∧ t = s.takeFatal r (encode i) := by
  rcases followsTable i s with ⟨hNone, u, hExec, hCompleted⟩ | ⟨r, hCause, hNotFetch, hExec⟩
  · obtain rfl : u = t := Host.Outcome.next.inj (hExec.symm.trans h)
    exact .inl ⟨hNone, hCompleted⟩
  · exact .inr ⟨r, hCause, hNotFetch, Host.Outcome.next.inj (h.symm.trans hExec)⟩

theorem completed_of_fatalCause_none {i : Instr} {s : State} (h : i.fatalCause s = .none) :
    ∃ t, exec i s = .next t ∧ Completed i s t := by
  rcases followsTable i s with ⟨_, hCompletes⟩ | ⟨r, hCause, _, _⟩
  · exact hCompletes
  · exact absurd (hCause.symm.trans h) (State.Raise_cause_ne_none r)

theorem raises_fatalCause {i : Instr} {s : State} (h : i.fatalCause s ≠ .none) : Raises i s (i.fatalCause s) := by
  rcases followsTable i s with ⟨hNone, _⟩ | ⟨r, hCause, _, hExec⟩
  · exact absurd hNone h
  · exact hCause ▸ raises_of_exec hExec

/-- Settles O17: `followsTable` says which of the two an instruction does; a completed one keeps the record and, but for
`Fx0A`, MODE (`Completed.frame`). -/
theorem onlyListedInstructionsRaise : Obligations.OnlyListedInstructionsRaise := by
  refine fun i s => ⟨fun hNone => ?_, fun c hCause hNe => ?_⟩
  · obtain ⟨t, hExec, hCompleted⟩ := completed_of_fatalCause_none hNone
    obtain ⟨hFcause, hFpc, hFopc⟩ := hCompleted.frame.record
    exact ⟨t, hExec, hFcause, hFpc, hFopc, hCompleted.frame.wait.imp_left And.right⟩
  · subst hCause
    exact raises_fatalCause hNe

/-- Settles O18: a sub-step answers a next state (`subStep_next_exists`), and so does every instruction (`exec_cases`). -/
theorem everyStepHasANextState : Obligations.EveryStepHasANextState := by
  refine ⟨fun s => ?_, fun i s => ?_⟩
  · by_cases hMode : s.mode = .faulted
    · exact ⟨s, step_faulted hMode⟩
    · obtain ⟨u, hSubStep⟩ := subStep_next_exists s
      exact ⟨u.afterSubStep, step_of_subStep hMode hSubStep⟩
  · obtain ⟨t, hExec, _⟩ := exec_cases i s
    exact ⟨t, hExec⟩

/-! ### What ends a clean run (sections 1 to 3) -/

theorem subStep_of_running {s : State} (h : s.mode = .running) : subStep s = fetchExecute s := by simp [subStep, h]

theorem clean_of_completed {i : Instr} {s t : State} (hClean : s.Clean) (h : Completed i s t)
    (hExec : exec i s = .next t) : t.Clean := by
  obtain ⟨_, hDiag, _⟩ := exec_kept hExec
  obtain ⟨hMode, hNoRecord⟩ := hClean
  exact ⟨h.frame.mode_ne_faulted hMode, hDiag.trans hNoRecord⟩

/-- Settles O55: of the three ways of `fetchExecute_cases`, the third leaves a clean state when the instruction
completes (`clean_of_completed`), and otherwise the table gives its cause (`exec_followsTable`). -/
theorem onlyTheseEndACleanRun : Obligations.OnlyTheseEndACleanRun := by
  intro s t hClean hRunning hStep hNotClean
  obtain ⟨hFaulted, _⟩ | ⟨_, u, hSubStep, rfl⟩ := step_cases hStep
  · exact absurd hFaulted hClean.1
  rw [subStep_of_running hRunning] at hSubStep
  rcases fetchExecute_cases hSubStep with ⟨hRange, _⟩ | ⟨w, r, hFetch, hDecode, _⟩ | ⟨w, i, hFetch, hDecode, hExec⟩
  · exact .inl hRange
  · exact .inr ⟨w, hFetch, .inl ⟨r, hDecode⟩⟩
  · refine .inr ⟨w, hFetch, .inr ⟨i, hDecode, ?_⟩⟩
    rcases exec_followsTable hExec with ⟨_, hCompleted⟩ | ⟨r, hCause, _, _⟩
    · obtain ⟨hMode, hDiag⟩ := clean_of_completed hClean hCompleted hExec
      exact absurd ⟨by simpa using hMode, by simpa using hDiag⟩ hNotClean
    · exact hCause ▸ State.Raise_cause_ne_none r

end Sys2Proof.Machine
end

section
/-! The statements of spec/40_step_and_tick.md sections 2 and 3: the sub-step by mode, the end of a sub-step, and the tick
as IPT steps. -/

namespace Sys2Proof.Machine

/-! ### The sub-step by mode (R121 to R124) -/

theorem subStep_of_blocked_none {s : State} (hBlocked : s.mode = .blockedOnKey) (hKeys : s.keys = 0) :
    subStep s = .next s := by
  simp [subStep, hBlocked, lowestPressed_eq_none.2 hKeys]

theorem subStep_of_blocked_some {s : State} {k : Nat} (hBlocked : s.mode = .blockedOnKey)
    (hKey : lowestPressed s.keys = some k) : subStep s = subStep (s.wake k) := by
  simp [subStep, hBlocked, hKey]

theorem subStep_of_decode {s : State} {w : Word} {i : Instr} (hRunning : s.mode = .running) (hFetch : s.fetch = .ok w)
    (hDecode : decodeWord w = .ok i) : subStep s = exec i s := by
  simp [subStep_of_running hRunning, fetchExecute, hFetch, hDecode]

/-- The two bytes at pc decode exactly when the word fetched does. -/
theorem decodeWord_of_decodeBytes_bytesFrom {s : State} {i : Instr} {rest : List Byte}
    (h : decodeBytes (s.bytesFrom s.pc.toNat 2) = .ok (i, rest)) :
    decodeWord (wordOfBytes (s.byteAt s.pc.toNat) (s.byteAt (s.pc.toNat + 1))) = .ok i := by
  simp only [State.bytesFrom, decodeBytes] at h
  split at h <;> simp_all

/-- Settles O6: the bytes at pc decode as the word fetched does (`decodeWord_of_decodeBytes_bytesFrom`), so the sub-step
is `exec i` (`subStep_of_decode`). -/
theorem stepRunsTheDecodedInstruction : Obligations.StepRunsTheDecodedInstruction := by
  intro s i rest hRunning hRange hDecode
  have hSubStep : subStep s = exec i s :=
    subStep_of_decode hRunning (s.fetch_ok hRange) (decodeWord_of_decodeBytes_bytesFrom hDecode)
  refine ⟨fun t hExec => ?_, fun r hExec => ?_, fun r hExec => ?_⟩ <;> simp [step, hRunning, hSubStep, hExec]

/-- Settles O9: the fetch answers FETCH_OOR (`State.fetch_error`), and the sub-step takes it with FOPC = 0. -/
theorem failedFetchIsFatal : Obligations.FailedFetchIsFatal := by
  intro s hRunning hRange
  have hSubStep : subStep s = .next (s.takeFatal (.fetchOor s.pc.toNat) 0) := by
    simp [subStep_of_running hRunning, fetchExecute, s.fetch_error hRange]
  exact ⟨_, hSubStep, step_of_subStep (by simp [hRunning]) hSubStep, rfl, fun _ => rfl⟩

/-! ### The wake (R122) -/

theorem toNat_reg_wake {s : State} {k : Nat} (hk : k < 16) : ((s.wake k).reg s.keydest).toNat = k := by
  have hReg : (s.wake k).reg s.keydest = BitVec.ofNat 8 k := s.reg_setReg_self s.keydest _
  rw [hReg, BitVec.toNat_ofNat]
  exact Nat.mod_eq_of_lt (Nat.lt_trans hk (by decide))

theorem sameRegsExcept_wake (s : State) (k : Nat) : SameRegsExcept [s.keydest] s (s.wake k) :=
  fun _ hr => s.reg_setReg_ne _ (List.ne_of_not_mem_cons hr)

/-- Settles O10: the woken state is `State.wake` of the least pressed key, from which sub-step and step go on alike. -/
theorem wakeCapturesTheLeastKeyAndGoesOn : Obligations.WakeCapturesTheLeastKeyAndGoesOn := by
  intro s hBlocked hKeys
  obtain ⟨k, hKey⟩ := exists_lowestPressed hKeys
  obtain ⟨hk, hDown, hLeast⟩ := lowestPressed_eq_some hKey
  have hSubStep : subStep s = subStep (s.wake k) := subStep_of_blocked_some hBlocked hKey
  have hStep : step s = step (s.wake k) := by simp [step, hBlocked, hSubStep]
  exact ⟨k, s.wake k, hk, hDown, hLeast, rfl, toNat_reg_wake hk, sameRegsExcept_wake s k, rfl, fun _ => rfl,
    hSubStep, hStep⟩

/-! ### After a sub-step (R127, R130) -/

/-- Settles O7: one lemma about `afterSubStep` per case, and those about its timers. -/
theorem afterSubStepMovesTheTick : Obligations.AfterSubStepMovesTheTick := by
  refine fun s => ⟨State.afterSubStep_of_faulted, State.afterSubStep_of_phase_lt, fun hMode hPhase => ⟨?_, fun hRunning =>
    State.timers_afterSubStep_of_ipt_le hRunning hPhase, fun hBlocked =>
    State.timers_afterSubStep_of_not_running (by simp [hBlocked])⟩⟩
  rw [State.afterSubStep_of_ipt_le hMode hPhase]
  rfl

/-! ### The tick as a loop (R127) -/

/-- What the tick does after its loop left `s`: nothing but the position after a raise, else the end of the tick. -/
def State.finishTick (s : State) : State :=
  if s.mode = .faulted then { s with phase := 0, stage := .ticking } else s.endTick

theorem State.finishTick_of_faulted {s : State} (h : s.mode = .faulted) :
    s.finishTick = { s with phase := 0, stage := .ticking } := if_pos h

theorem State.finishTick_of_not_faulted {s : State} (h : s.mode ≠ .faulted) : s.finishTick = s.endTick := if_neg h

theorem State.finishTick_at (s : State) (p : Nat) (g : HostStage) : (s.at p g).finishTick = s.finishTick := rfl

@[simp] theorem State.finishTick_mode (s : State) : s.finishTick.mode = s.mode := by
  unfold finishTick
  split <;> simp

theorem subSteps_of_faulted {s t : State} {k : Nat} (hSubStep : subStep s = .next t) (hMode : t.mode = .faulted) :
    subSteps (k + 1) s = .next t := by
  simp [subSteps, hSubStep, hMode]

theorem subSteps_of_not_faulted {s t : State} {k : Nat} (hSubStep : subStep s = .next t) (hMode : t.mode ≠ .faulted) :
    subSteps (k + 1) s = subSteps k t := by
  simp [subSteps, hSubStep, hMode]

theorem subSteps_next_exists (k : Nat) (s : State) : ∃ t, subSteps k s = .next t := by
  induction k generalizing s with
  | zero => exact ⟨s, rfl⟩
  | succ k ih =>
    obtain ⟨u, hSubStep⟩ := subStep_next_exists s
    by_cases hMode : u.mode = .faulted
    · exact ⟨u, subSteps_of_faulted hSubStep hMode⟩
    · rw [subSteps_of_not_faulted hSubStep hMode]
      exact ih u

theorem subSteps_at {k : Nat} {s t : State} (p : Nat) (g : HostStage) (h : subSteps k s = .next t) :
    subSteps k (s.at p g) = .next (t.at p g) := by
  induction k generalizing s with
  | zero => cases h; rfl
  | succ k ih =>
    obtain ⟨u, hSubStep⟩ := subStep_next_exists s
    have hSubStepAt := subStep_at p g hSubStep
    by_cases hMode : u.mode = .faulted
    · rw [subSteps_of_faulted hSubStep hMode] at h
      cases h
      exact subSteps_of_faulted hSubStepAt hMode
    · rw [subSteps_of_not_faulted hSubStep hMode] at h
      rw [subSteps_of_not_faulted hSubStepAt hMode]
      exact ih h

theorem subSteps_frames {k : Nat} {s t : State} (h : subSteps k s = .next t) : t.frames = s.frames := by
  induction k generalizing s with
  | zero => cases h; rfl
  | succ k ih =>
    obtain ⟨u, hSubStep⟩ := subStep_next_exists s
    obtain ⟨_, _, _, _, _, hFrames, _⟩ := subStep_kept hSubStep
    by_cases hMode : u.mode = .faulted
    · rw [subSteps_of_faulted hSubStep hMode] at h
      cases h
      exact hFrames
    · rw [subSteps_of_not_faulted hSubStep hMode] at h
      exact (ih h).trans hFrames

theorem tick_of_subSteps {s t : State} (hMode : s.mode ≠ .faulted) (h : subSteps s.cfg.ipt s = .next t) :
    tick s = .next t.finishTick := by
  simp [tick, hMode, h, State.finishTick]

theorem tick_of_faulted {s : State} (h : s.mode = .faulted) : tick s = .next s := by simp [tick, h]

/-- Settles O12: both the step and the tick look at MODE first. -/
theorem faultedMachineStaysPut : Obligations.FaultedMachineStaysPut := fun s hFaulted =>
  ⟨step_faulted hFaulted, tick_of_faulted hFaulted, by simp [State.fatal, hFaulted]⟩

/-! ### IPT steps are one tick -/

theorem run_of_faulted {s : State} (k : Nat) (h : s.mode = .faulted) : Sys2Proof.core.run k s = .next s := by
  induction k with
  | zero => exact run_zero s
  | succ k ih => rw [run_succ k s s (step_faulted h), ih]

/-- The steps that are left of a tick, one at least, answer what the loop's sub-steps left of it and the end of the tick
answer. The steps move the position and the loop does not, which `subSteps_at` makes up for. -/
theorem run_eq_finishTick (k : Nat) {s t : State} (hMode : s.mode ≠ .faulted) (hLeft : s.phase + (k + 1) = s.cfg.ipt)
    (h : subSteps (k + 1) s = .next t) : Sys2Proof.core.run (k + 1) s = .next t.finishTick := by
  induction k generalizing s t with
  | zero =>
    obtain ⟨u, hSubStep⟩ := subStep_next_exists s
    obtain ⟨hCfg, _, _, _, hPhase, _, _⟩ := subStep_kept hSubStep
    rw [run_succ _ _ _ (step_of_subStep hMode hSubStep), run_zero]
    by_cases hu : u.mode = .faulted
    · rw [subSteps_of_faulted hSubStep hu] at h
      cases h
      rw [State.afterSubStep_of_faulted hu, State.finishTick_of_faulted hu]
    · rw [subSteps_of_not_faulted hSubStep hu] at h
      cases h
      rw [State.afterSubStep_of_ipt_le hu (by rw [hCfg, hPhase]; omega), State.finishTick_of_not_faulted hu]
  | succ k ih =>
    obtain ⟨u, hSubStep⟩ := subStep_next_exists s
    obtain ⟨hCfg, _, _, _, hPhase, _, _⟩ := subStep_kept hSubStep
    rw [run_succ _ _ _ (step_of_subStep hMode hSubStep)]
    by_cases hu : u.mode = .faulted
    · rw [subSteps_of_faulted hSubStep hu] at h
      cases h
      rw [run_of_faulted _ (by simpa using hu), State.afterSubStep_of_faulted hu, State.finishTick_of_faulted hu]
    · rw [subSteps_of_not_faulted hSubStep hu] at h
      have hAfter : u.afterSubStep = u.at (u.phase + 1) .ticking :=
        State.afterSubStep_of_phase_lt hu (by rw [hCfg, hPhase]; omega)
      have hLeft' : (u.at (u.phase + 1) .ticking).phase + (k + 1) = (u.at (u.phase + 1) .ticking).cfg.ipt := by
        rw [State.at_phase, State.at_cfg, hCfg, hPhase]
        omega
      rw [hAfter, ← State.finishTick_at t (u.phase + 1) .ticking]
      exact ih hu hLeft' (subSteps_at (u.phase + 1) .ticking h)

/-- Settles O13: `run_eq_finishTick` from the start of the tick; a Faulted machine stays as it is in both. -/
theorem iptStepsAreOneTick : Obligations.IptStepsAreOneTick := by
  intro s hIpt hPhase
  by_cases hMode : s.mode = .faulted
  · exact (run_of_faulted _ hMode).trans (tick_of_faulted hMode).symm
  · obtain ⟨t, hSubSteps⟩ := subSteps_next_exists s.cfg.ipt s
    obtain ⟨k, hk⟩ : ∃ k, s.cfg.ipt = k + 1 := Nat.exists_eq_add_of_le' hIpt
    rw [tick_of_subSteps hMode hSubSteps]
    rw [hk] at hSubSteps ⊢
    exact run_eq_finishTick k hMode (by omega) hSubSteps

/-! ### FRAME_READY and the blocked tick -/

/-- Settles O15: the loop keeps the count of signals (`subSteps_frames`); the end of a tick adds one, a raise none. -/
theorem frameReadyOncePerTick : Obligations.FrameReadyOncePerTick := by
  intro s t hMode hTick
  obtain ⟨u, hSubSteps⟩ := subSteps_next_exists s.cfg.ipt s
  have hFrames := subSteps_frames hSubSteps
  rw [tick_of_subSteps hMode hSubSteps] at hTick
  cases hTick
  rw [State.finishTick_mode]
  refine ⟨fun hu => ?_, fun hu => ?_⟩
  · simp [State.finishTick_of_not_faulted hu, State.frameReady, hFrames]
  · simp [State.finishTick_of_faulted hu, State.frameReady, hFrames]

theorem subSteps_of_blocked_none {s : State} (k : Nat) (hBlocked : s.mode = .blockedOnKey) (hKeys : s.keys = 0) :
    subSteps k s = .next s := by
  induction k with
  | zero => rfl
  | succ k ih => rw [subSteps_of_not_faulted (subStep_of_blocked_none hBlocked hKeys) (by simp [hBlocked]), ih]

theorem State.endTick_of_not_running {s : State} (h : s.mode ≠ .running) :
    s.endTick = { s with
      phase := 0, frames := s.frames + 1, tickNo := s.tickNo + 1, keyTape := s.keyTape.tail, stage := .ticking } := by
  simp [endTick, timerUpdate, h]

/-- Settles O11: every sub-step is idle (`subStep_of_blocked_none`), and the end of a tick that is not Running keeps the
timers (`State.endTick_of_not_running`). -/
theorem blockedTickIsIdle : Obligations.BlockedTickIsIdle := by
  intro s hBlocked hKeys
  have hMode : s.mode ≠ .faulted := by simp [hBlocked]
  refine ⟨step_of_subStep hMode (subStep_of_blocked_none hBlocked hKeys), ?_⟩
  rw [tick_of_subSteps hMode (subSteps_of_blocked_none _ hBlocked hKeys), State.finishTick_of_not_faulted hMode,
    State.endTick_of_not_running (by simp [hBlocked])]

/-! ### KEYS inside a tick (70_reset_and_hazards.md section 3) -/

theorem State.keys_congr {s t : State} (hTape : t.keyTape = s.keyTape) (hTickNo : t.tickNo = s.tickNo) :
    t.keys = s.keys := by
  simp only [keys, hTape, hTickNo]

theorem State.keys_afterSubStep {s : State} (h : s.afterSubStep.phase ≠ 0) : s.afterSubStep.keys = s.keys := by
  by_cases hMode : s.mode = .faulted
  · simp [afterSubStep_of_faulted hMode] at h
  by_cases hPhase : s.phase + 1 < s.cfg.ipt
  · rw [afterSubStep_of_phase_lt hMode hPhase]
    rfl
  · simp [afterSubStep_of_ipt_le hMode (Nat.not_lt.1 hPhase)] at h

/-- Settles O25: no sub-step writes the tape or the tick's number (`subStep_kept`), and `afterSubStep` moves them only
when it sets the position to 0. -/
theorem keysConstantDuringTick : Obligations.KeysConstantDuringTick := by
  intro s t hStep hPhase
  obtain ⟨_, rfl⟩ | ⟨_, u, hSubStep, rfl⟩ := step_cases hStep
  · rfl
  · obtain ⟨_, _, hTape, hTickNo, _⟩ := subStep_kept hSubStep
    exact (State.keys_afterSubStep hPhase).trans (State.keys_congr hTape hTickNo)

/-! ### A step that faults (60_exceptions.md section 4) -/

/-- A sub-step from Running into Faulted took a fatal condition: of the fetch with FOPC = 0, or of the instruction fetched
with its word. -/
theorem fetchExecute_faulted_cases {s t : State} (hRunning : s.mode = .running) (h : fetchExecute s = .next t)
    (hFaulted : t.mode = .faulted) :
    (s.cfg.memSize ≤ s.pc.toNat + 1 ∧ t = s.takeFatal (.fetchOor s.pc.toNat) 0) ∨
      ∃ w r, s.fetch = .ok w ∧ r.cause ≠ .fetchOor ∧ t = s.takeFatal r w := by
  rcases fetchExecute_cases h with ⟨hRange, rfl⟩ | ⟨w, r, _, _, rfl⟩ | ⟨w, i, hFetch, hDecode, hExec⟩
  · exact .inl ⟨hRange, rfl⟩
  · simp [hRunning] at hFaulted
  · rcases exec_followsTable hExec with ⟨_, hCompleted⟩ | ⟨r, _, hCause, rfl⟩
    · exact absurd hFaulted (hCompleted.frame.mode_ne_faulted (by simp [hRunning]))
    · exact .inr ⟨w, r, hFetch, hCause, by rw [encode_of_decodeWord hDecode]⟩

/-- A step into Faulted took a fatal condition from the state before the fetch, which is the start of the step or, after
a wake, the woken state. -/
theorem step_faulted_cases {s t : State} (hMode : s.mode ≠ .faulted) (hStep : step s = .next t)
    (hFaulted : t.mode = .faulted) :
    ∃ b r w, t = (b.takeFatal r w).at 0 .ticking ∧
      (s.mode = .running ∧ b = s ∨ s.mode = .blockedOnKey ∧ ∃ k, lowestPressed s.keys = some k ∧ b = s.wake k) ∧
      (s.cfg.memSize ≤ s.pc.toNat + 1 ∧ r.cause = .fetchOor ∧ w = 0 ∨ s.fetch = .ok w ∧ r.cause ≠ .fetchOor) := by
  obtain ⟨hAlready, _⟩ | ⟨_, u, hSubStep, rfl⟩ := step_cases hStep
  · exact absurd hAlready hMode
  have hu : u.mode = .faulted := by simpa using hFaulted
  rw [State.afterSubStep_of_faulted hu]
  rcases subStep_cases hSubStep with ⟨hAlready, _⟩ | ⟨_, _, rfl⟩ | ⟨hRunning, hFetchExecute⟩ | ⟨hBlocked, k, hKey, hFetchExecute⟩
  · exact absurd hAlready hMode
  · exact absurd hu hMode
  · rcases fetchExecute_faulted_cases hRunning hFetchExecute hu with ⟨hRange, rfl⟩ | ⟨w, r, hFetch, hCause, rfl⟩
    · exact ⟨s, _, _, rfl, .inl ⟨hRunning, rfl⟩, .inl ⟨hRange, rfl, rfl⟩⟩
    · exact ⟨s, r, w, rfl, .inl ⟨hRunning, rfl⟩, .inr ⟨hFetch, hCause⟩⟩
  · rcases fetchExecute_faulted_cases (s.wake_mode k) hFetchExecute hu with
      ⟨hRange, rfl⟩ | ⟨w, r, hFetch, hCause, rfl⟩
    · exact ⟨s.wake k, _, _, rfl, .inr ⟨hBlocked, k, hKey, rfl⟩, .inl ⟨hRange, rfl, rfl⟩⟩
    · exact ⟨s.wake k, r, w, rfl, .inr ⟨hBlocked, k, hKey, rfl⟩, .inr ⟨hFetch, hCause⟩⟩

/-- Settles O16: the frame of a fatal condition taken at the start of the step or after the wake (`step_faulted_cases`). -/
theorem fatalConditionIsPrecise : Obligations.FatalConditionIsPrecise := by
  intro s t hMode hStep hFaulted
  obtain ⟨b, r, w, rfl, hStart, hWord⟩ := step_faulted_cases hMode hStep hFaulted
  have hCause : ((b.takeFatal r w).at 0 .ticking).fcause ≠ .none := State.Raise_cause_ne_none r
  have hWord' : (s.cfg.memSize ≤ s.pc.toNat + 1 ∧ r.cause = .fetchOor ∧ w = 0) ∨
      ∃ w', s.fetch = .ok w' ∧ w = w' ∧ r.cause ≠ .fetchOor :=
    hWord.imp_right fun ⟨hFetch, hNe⟩ => ⟨w, hFetch, rfl, hNe⟩
  rcases hStart with ⟨hRunning, rfl⟩ | ⟨hBlocked, k, hKey, rfl⟩
  · exact ⟨rfl, fun _ => rfl, hCause, fun _ => rfl, fun h => by simp [hRunning] at h, hWord'⟩
  · obtain ⟨hk, hDown, _⟩ := lowestPressed_eq_some hKey
    refine ⟨rfl, fun _ => rfl, hCause, fun h => by simp [hBlocked] at h, fun _ => ⟨sameRegsExcept_wake s k, ?_⟩, hWord'⟩
    exact (toNat_reg_wake hk).symm ▸ hDown

end Sys2Proof.Machine
end

section
/-! The statements of spec/10_state.md sections 1, 6, 8, 9 and 13, and spec/70_reset_and_hazards.md: the memory's form, the
invariant, RESET and LOAD. -/

namespace Sys2Proof.Machine

/-! ### The canonical form of memory is unique -/

theorem Memory.wf_cons (cfg : Config) (a : Nat) (v : Byte) (m : Memory) :
    Memory.wf cfg ((a, v) :: m) = true ↔ (∀ c ∈ m, a < c.1) ∧ v ≠ resetByte cfg a ∧ m.wf cfg = true := by
  simp only [wf, Bool.and_eq_true, sorted_cons, List.all_cons, bne_iff_ne]
  tauto

theorem Memory.read_cons (d : Byte) (a b : Nat) (v : Byte) (m : Memory) :
    Memory.read d a ((b, v) :: m) = if a = b then v else m.read d a := rfl

theorem Memory.read_of_forall_lt {d : Byte} {a b : Nat} {m : Memory} (hAbove : ∀ c ∈ m, a < c.1) (hb : b ≤ a) :
    m.read d b = d := by
  induction m with
  | nil => rfl
  | cons c m ih =>
    have hc : b ≠ c.1 := by
      have := hAbove c List.mem_cons_self
      omega
    rw [read_cons, if_neg hc, ih fun e he => hAbove e (List.mem_cons_of_mem _ he)]

/-- The least listed address shows in what the memory reads. -/
theorem Memory.le_of_reads_alike {cfg : Config} {a b : Nat} {v w : Byte} {m m' : Memory}
    (hm : Memory.wf cfg ((a, v) :: m) = true) (hm' : Memory.wf cfg ((b, w) :: m') = true)
    (hRead : ∀ x, Memory.read (resetByte cfg x) x ((a, v) :: m) = Memory.read (resetByte cfg x) x ((b, w) :: m')) :
    b ≤ a := by
  obtain ⟨_, hv, _⟩ := (wf_cons cfg a v m).1 hm
  obtain ⟨hAbove', _, _⟩ := (wf_cons cfg b w m').1 hm'
  by_contra hLt
  have hReadA := hRead a
  rw [read_cons, if_pos rfl, read_cons, if_neg (by omega), read_of_forall_lt hAbove' (by omega)] at hReadA
  exact hv hReadA

theorem Memory.eq_nil_of_reads_reset {cfg : Config} {m : Memory} (hm : m.wf cfg = true)
    (hRead : ∀ x, m.read (resetByte cfg x) x = resetByte cfg x) : m = [] := by
  cases m with
  | nil => rfl
  | cons c m =>
    obtain ⟨_, hv, _⟩ := (wf_cons cfg c.1 c.2 m).1 hm
    have hReadC := hRead c.1
    rw [read_cons, if_pos rfl] at hReadC
    exact absurd hReadC hv

/-- Settles O22: the least listed address and its byte are the same in both (`Memory.le_of_reads_alike`), and the rest
reads alike, since neither rest lists that address. -/
theorem canonicalMemoriesReadingAlikeAreEqual : Obligations.CanonicalMemoriesReadingAlikeAreEqual := by
  intro cfg m
  induction m with
  | nil => exact fun m' _ hm' hRead => (Memory.eq_nil_of_reads_reset hm' fun x => (hRead x).symm).symm
  | cons c m ih =>
    intro m' hm hm' hRead
    cases m' with
    | nil => exact Memory.eq_nil_of_reads_reset hm hRead
    | cons c' m' =>
      obtain ⟨a, v⟩ := c
      obtain ⟨b, w⟩ := c'
      obtain ⟨hAbove, _, hRest⟩ := (Memory.wf_cons cfg a v m).1 hm
      obtain ⟨hAbove', _, hRest'⟩ := (Memory.wf_cons cfg b w m').1 hm'
      obtain rfl : a = b :=
        Nat.le_antisymm (Memory.le_of_reads_alike hm' hm fun x => (hRead x).symm) (Memory.le_of_reads_alike hm hm' hRead)
      have hByte : v = w := by simpa [Memory.read_cons] using hRead a
      have hReadRest : ∀ x, Memory.read (resetByte cfg x) x m = Memory.read (resetByte cfg x) x m' := by
        intro x
        by_cases hx : x = a
        · rw [Memory.read_of_forall_lt hAbove hx.le, Memory.read_of_forall_lt hAbove' hx.le]
        · simpa [Memory.read_cons, hx] using hRead x
      rw [hByte, ih m' hRest hRest' hReadRest]

/-! ### Reset (R47) -/

theorem inv_resetWith {cfg : Config} (h : cfg.wf = true) : (State.resetWith cfg).Inv where
  params := h
  canonical := rfl
  writable := rfl
  stackBound := fun d _ => Nat.zero_le d
  phaseBound := by
    have hIpt : (4096 ≤ cfg.memSize ∧ cfg.memSize ≤ 65536) ∧ 1 ≤ cfg.ipt := by simpa [Config.wf] using h
    exact hIpt.2
  faultRecord := nofun
  faultWord := nofun
  noRecord := fun _ => ⟨rfl, rfl, rfl⟩

/-- Settles O19: the parameters are permitted, and everything else the invariant speaks of is empty or 0. -/
theorem resetSatisfiesInvariant : Obligations.ResetSatisfiesInvariant :=
  ⟨inv_resetWith (by decide), fun _ => inv_resetWith⟩

theorem reg_resetWith (cfg : Config) (r : Reg) : (State.resetWith cfg).reg r = 0 := by
  simp [State.reg, State.resetWith]

/-- Byte r of glyph d is at 5 d + r (R41). -/
theorem resetByte_glyph (cfg : Config) (d : Fin 16) (r : Fin 5) :
    resetByte cfg (5 * d.val + r.val) = cfg.font[d][r] := by
  have hFont : hw.fontBase ≤ 5 * d.val + r.val ∧ 5 * d.val + r.val < fontEnd :=
    ⟨Nat.zero_le _, by rw [fontEnd_eq]; omega⟩
  have hDiv : (5 * d.val + r.val - hw.fontBase) / hw.glyphBytes = d.val := by
    show (5 * d.val + r.val - 0) / 5 = d.val
    omega
  have hMod : (5 * d.val + r.val - hw.fontBase) % hw.glyphBytes = r.val := by
    show (5 * d.val + r.val - 0) % 5 = r.val
    omega
  simp only [resetByte, dif_pos hFont, hDiv, hMod]
  rfl

theorem resetByte_of_fontEnd_le {cfg : Config} {a : Nat} (h : fontEnd ≤ a) : resetByte cfg a = 0 :=
  dif_neg fun hFont => absurd hFont.2 (Nat.not_lt.2 h)

/-- Settles O23: the reset memory lists nothing, so that each byte reads as `resetByte`; the rest is `State.resetWith`. -/
theorem resetGivesTheResetState : Obligations.ResetGivesTheResetState := by
  intro s hPhase
  have hReset : hostReset s = .next { State.resetWith s.cfg with tickNo := s.tickNo + 1, draws := s.draws } := by
    simp [hostReset, State.betweenTicks, hPhase]
  refine ⟨_, hReset, rfl, rfl, rfl, fun r => congrArg BitVec.toNat (reg_resetWith s.cfg r), rfl, rfl, rfl, rfl, rfl, rfl,
    rfl, rfl, rfl, FrameBuffer.pixel_clear, resetByte_glyph s.cfg, fun a ha => ?_⟩
  exact congrArg BitVec.toNat (resetByte_of_fontEnd_le (cfg := s.cfg) ha)

/-! ### LOAD (70_reset_and_hazards.md section 2) -/

theorem hostLoad_of_fits {s : State} {image : List Byte} (hPhase : s.phase = 0) (hFresh : s.stage = .fresh)
    (hFits : 0x200 + image.length ≤ s.cfg.memSize) :
    hostLoad image s = .next { s.pokeAll 0x200 image with stage := .loaded } := by
  simp [hostLoad, State.betweenTicks, hPhase, hFresh, hFits]

theorem hostLoad_of_oversize {s : State} {image : List Byte} (hPhase : s.phase = 0) (hFresh : s.stage = .fresh)
    (hOversize : s.cfg.memSize < 0x200 + image.length) : hostLoad image s = .refused .oversizeImage := by
  simp [hostLoad, State.betweenTicks, hPhase, hFresh, hOversize]

theorem hostLoad_of_not_fresh {s : State} {image : List Byte} (hPhase : s.phase = 0) (hNotFresh : s.stage ≠ .fresh) :
    hostLoad image s = .refused .loadOutOfTurn := by
  simp [hostLoad, State.betweenTicks, hPhase, hNotFresh]

/-- Settles O24: an image that fits is one block store at 0x200 (`hostLoad_of_fits`), after which the stage is no longer
fresh (`hostLoad_of_not_fresh`). -/
theorem loadCopiesTheImage : Obligations.LoadCopiesTheImage := by
  refine fun s image hPhase hFresh => ⟨fun hFits => ?_, hostLoad_of_oversize hPhase hFresh⟩
  refine ⟨_, hostLoad_of_fits hPhase hFresh hFits, fun k hk => s.byteAt_pokeAll_inside 0x200 k image hk,
    fun a ha => s.byteAt_pokeAll_outside 0x200 a image ha,
    congrArg (fun t : State => { t with stage := .loaded }) (s.pokeAll_eq 0x200 image),
    fun image' => hostLoad_of_not_fresh ?_ ?_⟩
  · simpa using hPhase
  · simp

/-! ### The invariant -/

/-- A state that is not Faulted keeps the invariant when memory and STACK do and the other fields it speaks of are kept. -/
theorem State.Inv.of_kept {s t : State} (h : s.Inv) (hs : s.mode ≠ .faulted) (ht : t.mode ≠ .faulted) (hCfg : t.cfg = s.cfg)
    (hPhase : t.phase = s.phase) (hRecord : t.fcause = s.fcause ∧ t.fpc = s.fpc ∧ t.fopc = s.fopc)
    (hCanonical : t.mem.wf s.cfg = true) (hWritable : t.mem.listsWritable s.cfg = true)
    (hStack : ∀ d, s.cfg.stackDepth = some d → t.stack.length ≤ d) : t.Inv where
  params := hCfg ▸ h.params
  canonical := hCfg ▸ hCanonical
  writable := hCfg ▸ hWritable
  stackBound := hCfg ▸ hStack
  phaseBound := by rw [hCfg, hPhase]; exact h.phaseBound
  faultRecord := fun hFaulted => absurd hFaulted ht
  faultWord := fun hFaulted => absurd hFaulted ht
  noRecord := fun _ => by
    obtain ⟨hFcause, hFpc, hFopc⟩ := hRecord
    rw [hFcause, hFpc, hFopc]
    exact h.noRecord hs

theorem State.Inv.wake {s : State} (h : s.Inv) (hs : s.mode ≠ .faulted) (k : Nat) : (s.wake k).Inv :=
  h.of_kept hs (by simp) rfl rfl ⟨rfl, rfl, rfl⟩ h.canonical h.writable h.stackBound

theorem State.Inv.reportDecodeError {s : State} (h : s.Inv) (hs : s.mode ≠ .faulted) (w : Word) :
    (s.reportDecodeError w).Inv :=
  h.of_kept hs hs rfl rfl ⟨rfl, rfl, rfl⟩ h.canonical h.writable h.stackBound

/-- FOPC must be 0 after a failed fetch and the word of an instruction otherwise (R36). -/
theorem State.Inv.takeFatal {s : State} (h : s.Inv) {r : Raise} {w : Word} (hFetch : r.cause = .fetchOor → w = 0)
    (hInstr : r.cause ≠ .fetchOor → ∃ i, decodeWord w = .ok i) : (s.takeFatal r w).Inv where
  params := h.params
  canonical := h.canonical
  writable := h.writable
  stackBound := h.stackBound
  phaseBound := h.phaseBound
  faultRecord := fun _ => ⟨State.Raise_cause_ne_none r, rfl⟩
  faultWord := fun _ => ⟨hFetch, hInstr⟩
  noRecord := fun hMode => absurd rfl hMode

theorem CompletedFrame.stack_length_le {i : Instr} {s t : State} (h : CompletedFrame i s t) (hInv : s.Inv) (d : Nat)
    (hDepth : s.cfg.stackDepth = some d) : t.stack.length ≤ d := by
  have hBound := hInv.stackBound d hDepth
  rcases h.stack with hKept | ⟨_, hTail | ⟨hNotFull, a, hPush⟩⟩
  · rwa [hKept]
  · rw [hTail, List.length_tail]
    omega
  · rw [hPush, List.length_cons]
    exact (stackIsFull_eq_false_iff s).1 hNotFull d hDepth

theorem CompletedFrame.mem_wf {i : Instr} {s t : State} (h : CompletedFrame i s t) (hInv : s.Inv) :
    t.mem.wf s.cfg = true := by
  rcases h.mem with hKept | ⟨_, base, bytes, _, _, hStore⟩
  · exact hKept ▸ hInv.canonical
  · exact hStore ▸ s.wf_pokeAll base bytes hInv.canonical

theorem CompletedFrame.mem_listsWritable {i : Instr} {s t : State} (h : CompletedFrame i s t) (hInv : s.Inv) :
    t.mem.listsWritable s.cfg = true := by
  rcases h.mem with hKept | ⟨_, base, bytes, hFont, hEnd, hStore⟩
  · exact hKept ▸ hInv.writable
  · exact hStore ▸ s.listsWritable_pokeAll base bytes hInv.writable (fun _ => hFont) hEnd

theorem State.Inv.completed {i : Instr} {s t : State} (h : s.Inv) (hs : s.mode ≠ .faulted) (hExec : exec i s = .next t)
    (hCompleted : Completed i s t) : t.Inv := by
  obtain ⟨hCfg, _, _, _, hPhase, _, _⟩ := exec_kept hExec
  have hFrame := hCompleted.frame
  exact h.of_kept hs (hFrame.mode_ne_faulted hs) hCfg hPhase hFrame.record (hFrame.mem_wf h) (hFrame.mem_listsWritable h)
    (hFrame.stack_length_le h)

theorem State.Inv.fetchExecute {s t : State} (h : s.Inv) (hs : s.mode ≠ .faulted)
    (hFetchExecute : fetchExecute s = .next t) : t.Inv := by
  rcases fetchExecute_cases hFetchExecute with ⟨_, rfl⟩ | ⟨w, _, _, _, rfl⟩ | ⟨w, i, _, hDecode, hExec⟩
  · exact h.takeFatal (fun _ => rfl) fun hNe => absurd rfl hNe
  · exact h.reportDecodeError hs w
  · rcases exec_followsTable hExec with ⟨_, hCompleted⟩ | ⟨r, _, hCause, rfl⟩
    · exact h.completed hs hExec hCompleted
    · exact h.takeFatal (fun hEq => absurd hEq hCause) fun _ => ⟨i, encode_of_decodeWord hDecode ▸ hDecode⟩

theorem State.Inv.subStep {s t : State} (h : s.Inv) (hs : s.mode ≠ .faulted) (hSubStep : subStep s = .next t) : t.Inv := by
  rcases subStep_cases hSubStep with ⟨_, rfl⟩ | ⟨_, _, rfl⟩ | ⟨_, hFetchExecute⟩ | ⟨_, k, _, hFetchExecute⟩
  · exact h
  · exact h
  · exact h.fetchExecute hs hFetchExecute
  · exact (h.wake hs k).fetchExecute (by simp) hFetchExecute

theorem State.afterSubStep_phase_lt {s : State} (h : s.phase < s.cfg.ipt) : s.afterSubStep.phase < s.cfg.ipt := by
  by_cases hMode : s.mode = .faulted
  · rw [afterSubStep_of_faulted hMode]
    exact Nat.zero_lt_of_lt h
  by_cases hPhase : s.phase + 1 < s.cfg.ipt
  · rw [afterSubStep_of_phase_lt hMode hPhase]
    exact hPhase
  · rw [afterSubStep_of_ipt_le hMode (Nat.not_lt.1 hPhase)]
    exact Nat.zero_lt_of_lt h

theorem State.Inv.afterSubStep {s : State} (h : s.Inv) : s.afterSubStep.Inv where
  params := by simpa using h.params
  canonical := by simpa using h.canonical
  writable := by simpa using h.writable
  stackBound := by simpa using h.stackBound
  phaseBound := by simpa using State.afterSubStep_phase_lt h.phaseBound
  faultRecord := by simpa using h.faultRecord
  faultWord := by simpa using h.faultWord
  noRecord := by simpa using h.noRecord

/-- Settles O20: the sub-step keeps the invariant (`State.Inv.subStep`) and so does what the tick does after it
(`State.Inv.afterSubStep`). -/
theorem everyStepKeepsInvariant : Obligations.EveryStepKeepsInvariant := by
  intro s t hInv hStep
  obtain ⟨_, rfl⟩ | ⟨hMode, u, hSubStep, rfl⟩ := step_cases hStep
  · exact hInv
  · exact (hInv.subStep hMode hSubStep).afterSubStep

/-! ### The font (section 9) -/

theorem CompletedFrame.byteAt_font {i : Instr} {s t : State} (h : CompletedFrame i s t) (hCfg : t.cfg = s.cfg) {a : Nat}
    (ha : a < fontEnd) : t.byteAt a = s.byteAt a := by
  rcases h.mem with hKept | ⟨_, base, bytes, hFont, _, hStore⟩
  · exact State.byteAt_congr hKept hCfg a
  · calc t.byteAt a = (s.pokeAll base bytes).byteAt a := State.byteAt_congr hStore (by simp [hCfg]) a
      _ = s.byteAt a := font_kept_pokeAll s base a bytes (.inr hFont) ha

theorem fetchExecute_byteAt_font {s t : State} (h : fetchExecute s = .next t) {a : Nat} (ha : a < fontEnd) :
    t.byteAt a = s.byteAt a := by
  rcases fetchExecute_cases h with ⟨_, rfl⟩ | ⟨_, _, _, _, rfl⟩ | ⟨w, i, _, _, hExec⟩
  · rfl
  · rfl
  · rcases exec_inv hExec with hCompleted | ⟨r, rfl⟩
    · exact hCompleted.frame.byteAt_font (exec_kept hExec).1 ha
    · rfl

theorem subStep_byteAt_font {s t : State} (h : subStep s = .next t) {a : Nat} (ha : a < fontEnd) :
    t.byteAt a = s.byteAt a := by
  rcases subStep_cases h with ⟨_, rfl⟩ | ⟨_, _, rfl⟩ | ⟨_, hFetchExecute⟩ | ⟨_, k, _, hFetchExecute⟩
  · rfl
  · rfl
  · exact fetchExecute_byteAt_font hFetchExecute ha
  · exact (fetchExecute_byteAt_font hFetchExecute ha).trans (s.byteAt_wake k a)

/-- Settles O21: a completed instruction stores above the font only (`CompletedFrame.byteAt_font`), and no sub-step writes
the parameters (`subStep_kept`). -/
theorem noStepChangesFontOrParameters : Obligations.NoStepChangesFontOrParameters := by
  intro s t hStep
  obtain ⟨_, rfl⟩ | ⟨_, u, hSubStep, rfl⟩ := step_cases hStep
  · exact ⟨rfl, fun _ _ => rfl⟩
  · refine ⟨?_, fun a ha => ?_⟩
    · rw [State.afterSubStep_cfg, (subStep_kept hSubStep).1]
    · rw [State.byteAt_afterSubStep, subStep_byteAt_font hSubStep ha]

end Sys2Proof.Machine
end

section
/-! The statements of spec/41_flow.md on `5xy0`, `Bnnn`, the call and the return. -/

namespace Sys2Proof.Machine

/-- Settles O33: `5xy0` completes with `skipIf` of the comparison of V[x] with V[y]. -/
theorem skipOnEqualRegisters : Obligations.SkipOnEqualRegisters := fun s x y =>
  skipsWhen_of_exec rfl (decide_eq_iff_toNat_eq (s.reg x) (s.reg y))

theorem exec_jpV0 (s : State) (nnn : BitVec 12) : exec (.jpV0 nnn) s = .next (s.setPc (s.indexedTarget nnn)) := rfl

/-- The sum of a byte and 12 bits fits in 16 bits. -/
theorem State.toNat_indexedTarget (s : State) (nnn : BitVec 12) :
    (s.indexedTarget nnn).toNat = (s.reg 0).toNat + nnn.toNat := by
  have hByte := byte_lt (s.reg 0)
  have hAddr := nnn.isLt
  rw [indexedTarget, BitVec.toNat_add, toNat_zextByte, toNat_zextAddr]
  exact Nat.mod_eq_of_lt (by show _ < 65536; omega)

/-- Settles O27: the jump is one `setPc` (`exec_jpV0`) to a sum that does not wrap (`State.toNat_indexedTarget`). -/
theorem indexedJumpAddsVZero : Obligations.IndexedJumpAddsVZero := fun s nnn =>
  ⟨s.setPc (s.indexedTarget nnn), exec_jpV0 s nnn, s.toNat_indexedTarget nnn, rfl, fun _ => rfl⟩

/-- Settles O28: the stack is full or not (`stackIsFull_eq_false_iff`), and `exec_call_ok`, `exec_call_full` say what the
call does in each case. -/
theorem callPushesTheReturnAddress : Obligations.CallPushesTheReturnAddress := by
  refine fun s nnn => ⟨fun hNotFull => ?_, fun d hDepth hFull => ?_⟩
  · have hExec := exec_call_ok (nnn := nnn) ((stackIsFull_eq_false_iff s).2 hNotFull)
    exact ⟨_, nextPc s.pc, hExec, toNat_zextAddr nnn, rfl, State.toNat_nextPc s.pc, rfl, fun _ => rfl⟩
  · exact raises_of_exec (exec_call_full ((stackIsFull_eq_true_iff s).2 ⟨d, hDepth, hFull⟩))

/-- Settles O29: `exec_ret_cons` for a stack with a top, `exec_ret_nil` for an empty one. -/
theorem returnPopsIntoPc : Obligations.ReturnPopsIntoPc := by
  refine fun s => ⟨fun a rest hStack => ?_, fun hEmpty => ?_⟩
  · exact ⟨_, exec_ret_cons hStack, rfl, rfl, rfl, fun _ => rfl⟩
  · exact ⟨raises_of_exec (exec_ret_nil hEmpty), _, exec_ret_nil hEmpty, rfl⟩

/-- Settles O30: a call that did not raise left A + 2 on top of the caller's stack, which the return pops. -/
theorem returnResumesAfterTheCall : Obligations.ReturnResumesAfterTheCall := by
  intro s t u nnn hCall hNotFull hStack
  cases hFull : s.stackIsFull
  · rw [exec_call_ok hFull] at hCall
    cases hCall
    exact ⟨_, exec_ret_cons hStack, State.toNat_nextPc s.pc, rfl⟩
  · rw [exec_call_full hFull] at hCall
    cases hCall
    exact absurd rfl hNotFull

end Sys2Proof.Machine
end

section
/-! The statements of spec/42_alu.md on the flag writers and the random byte: a destination and VF, and which stands when
they are one register (R160). -/

namespace Sys2Proof.Machine

/-! ### Two register writes -/

theorem State.setReg_setReg_self (s : State) (x : Reg) (a b : Byte) : (s.setReg x a).setReg x b = s.setReg x b := by
  simp [setReg]

theorem State.setReg_setReg_comm (s : State) {x y : Reg} (a b : Byte) (h : x ≠ y) :
    (s.setReg x a).setReg y b = (s.setReg y b).setReg x a := by
  have hVal : x.val ≠ y.val := fun hEq => h (Fin.ext hEq)
  simp [setReg, Vector.set_comm a b hVal]

/-- What a flag writer has to show when its destination is not VF: that it completes with the two writes. -/
theorem writesRegAndFlag_of_exec {i : Instr} {s : State} {x : Reg} {b flag : Byte} {vx vf : Nat} (hx : x ≠ VF)
    (hExec : exec i s = .next ((s.advance.setReg x b).setReg VF flag)) (hb : b.toNat = vx) (hFlag : flag.toNat = vf) :
    WritesRegAndFlag i s x vx vf := by
  refine ⟨_, hExec, State.toNat_nextPc s.pc, ?_, ?_, fun r hr => ?_, rfl, fun _ => rfl⟩
  · rw [State.reg_setReg_ne _ _ hx, State.reg_setReg_self, hb]
  · rw [State.reg_setReg_self, hFlag]
  · exact reg_setReg_setReg_of_ne (by simpa using hr)

/-- The same for the forms that write VF first: the order does not matter between two registers. -/
theorem writesRegAndFlag_of_exec_flagFirst {i : Instr} {s : State} {x : Reg} {b flag : Byte} {vx vf : Nat} (hx : x ≠ VF)
    (hExec : exec i s = .next ((s.advance.setReg VF flag).setReg x b)) (hb : b.toNat = vx) (hFlag : flag.toNat = vf) :
    WritesRegAndFlag i s x vx vf := by
  rw [State.setReg_setReg_comm _ _ _ hx.symm] at hExec
  exact writesRegAndFlag_of_exec hx hExec hb hFlag

/-- When the destination is VF itself, the second write stands (decision D12). -/
theorem writesOneReg_of_exec_twice {i : Instr} {s : State} {x : Reg} {a b c : Byte}
    (hExec : exec i s = .next ((s.advance.setReg x a).setReg x b)) (hb : b = c) : WritesOneReg i s x c := by
  rw [State.setReg_setReg_self] at hExec
  exact hb ▸ writesOneReg_of_exec hExec

/-! ### The results and the flags as numbers (R168 to R173) -/

theorem toNat_flagByte (b : Bool) : (flagByte b).toNat = if b then 1 else 0 := by cases b <;> rfl

theorem toNat_carryFlag (a b : Byte) : (carryFlag a b).toNat = if a.toNat + b.toNat > 255 then 1 else 0 := by
  simp [carryFlag, toNat_flagByte]

theorem carryFlag_eq (a b : Byte) : carryFlag a b = if a.toNat + b.toNat > 255 then 1 else 0 := by
  simp [carryFlag, flagByte]

theorem toNat_greaterFlag (a b : Byte) : (greaterFlag a b).toNat = if a.toNat > b.toNat then 1 else 0 := by
  simp [greaterFlag, toNat_flagByte]

theorem toNat_sub_byte (a b : Byte) : (a - b).toNat = (a.toNat + 256 - b.toNat) % 256 := by
  have ha := byte_lt a
  have hb := byte_lt b
  rw [BitVec.toNat_sub]
  show (256 - b.toNat + a.toNat) % 256 = _
  congr 1
  omega

theorem byte_eq_ofNat {b : Byte} {n : Nat} (h : b.toNat = n % 256) : b = BitVec.ofNat 8 n :=
  BitVec.eq_of_toNat_eq (h.trans (BitVec.toNat_ofNat n 8).symm)

theorem toNat_shr_byte (a : Byte) : (a >>> 1).toNat = a.toNat / 2 := by
  rw [BitVec.toNat_ushiftRight, Nat.shiftRight_one]

theorem toNat_shl_byte (a : Byte) : (a <<< 1).toNat = 2 * a.toNat % 256 := by
  rw [BitVec.toNat_shiftLeft, Nat.shiftLeft_eq]
  show a.toNat * 2 % 256 = _
  rw [Nat.mul_comm]

theorem toNat_bit0Flag (a : Byte) : (bit0Flag a).toNat = a.toNat % 2 := by
  rw [bit0Flag, toNat_flagByte, BitVec.getLsbD, Nat.testBit_zero]
  split <;> simp_all

theorem toNat_bit7Flag (a : Byte) : (bit7Flag a).toNat = a.toNat / 128 := by
  have ha := byte_lt a
  rw [bit7Flag, toNat_flagByte, BitVec.getLsbD, Nat.testBit_eq_decide_div_mod_eq]
  split <;> simp_all <;> omega

/-- Settles O35: `8xy4` writes Vx and then VF, the carry standing when they are one register. -/
theorem addWritesSumThenCarry : Obligations.AddWritesSumThenCarry := by
  refine fun s x y => ⟨fun hx => ?_, fun hx => ?_⟩
  · exact writesRegAndFlag_of_exec hx rfl (BitVec.toNat_add _ _) (toNat_carryFlag _ _)
  · subst hx
    exact writesOneReg_of_exec_twice rfl (carryFlag_eq _ _)

/-- Settles O36: both forms write VF and then Vx, the difference standing when they are one register. -/
theorem subtractionsWriteFlagThenDifference : Obligations.SubtractionsWriteFlagThenDifference := by
  refine fun s x y => ⟨fun hx => ⟨?_, ?_⟩, fun hx => ?_⟩
  · exact writesRegAndFlag_of_exec_flagFirst hx rfl (toNat_sub_byte _ _) (toNat_greaterFlag _ _)
  · exact writesRegAndFlag_of_exec_flagFirst hx rfl (toNat_sub_byte _ _) (toNat_greaterFlag _ _)
  · subst hx
    exact ⟨writesOneReg_of_exec_twice rfl (byte_eq_ofNat (toNat_sub_byte _ _)),
      writesOneReg_of_exec_twice rfl (byte_eq_ofNat (toNat_sub_byte _ _))⟩

theorem shr_byte_eq_ofNat (a : Byte) : a >>> 1 = BitVec.ofNat 8 (a.toNat / 2) := by
  rw [← toNat_shr_byte, BitVec.ofNat_toNat, BitVec.setWidth_eq]

/-- Settles O37: both forms write VF and then Vx, neither looking at y. -/
theorem shiftsCaptureTheBitShiftedOut : Obligations.ShiftsCaptureTheBitShiftedOut := by
  refine fun s x y => ⟨fun hx => ⟨?_, ?_⟩, fun hx => ?_⟩
  · exact writesRegAndFlag_of_exec_flagFirst hx rfl (toNat_shr_byte _) (toNat_bit0Flag _)
  · exact writesRegAndFlag_of_exec_flagFirst hx rfl (toNat_shl_byte _) (toNat_bit7Flag _)
  · subst hx
    exact ⟨writesOneReg_of_exec_twice rfl (shr_byte_eq_ofNat _),
      writesOneReg_of_exec_twice rfl (byte_eq_ofNat (toNat_shl_byte _))⟩

/-! ### The random byte (section 4) -/

theorem exec_rnd (s : State) (x : Reg) (kk : Byte) :
    exec (.rnd x kk) s = .next (s.advance.consumeRnd.setReg x (s.rnd &&& kk)) := rfl

/-- Settles O38: `Cxkk` uses a draw up and writes one register (`exec_rnd`). -/
theorem randomByteUnderTheMask : Obligations.RandomByteUnderTheMask := by
  refine fun s x kk => ⟨⟨_, exec_rnd s x kk, State.toNat_nextPc s.pc, fun k _ => ?_, fun r hr => ?_, rfl, fun _ => rfl⟩,
    fun _ => rfl⟩
  · rw [State.reg_setReg_self, BitVec.getLsbD_and]
  · exact State.reg_setReg_ne s.advance.consumeRnd _ (List.ne_of_not_mem_cons hr)

end Sys2Proof.Machine
end

section
/-! The statements of spec/45_keys_timers.md: the key tests, the key wait, the timer transfers. -/

namespace Sys2Proof.Machine

/-- Settles O50: with a valid index both complete with `skipIf` of the key's bit, else both raise. -/
theorem keySkipsTestOneKey : Obligations.KeySkipsTestOneKey := by
  refine fun s x => ⟨fun hIndex => ⟨?_, ?_⟩, fun hIndex => ?_⟩
  · exact skipsWhen_of_exec (exec_skp_ok hIndex) Iff.rfl
  · exact skipsWhen_of_exec (exec_sknp_ok hIndex) (by rw [Bool.not_eq_true'])
  · obtain ⟨_, hSkp⟩ := exec_skp_raise hIndex
    obtain ⟨_, hSknp⟩ := exec_sknp_raise hIndex
    exact ⟨raises_of_exec hSkp, raises_of_exec hSknp⟩

theorem exec_ldVxK (s : State) (x : Reg) : exec (.ldVxK x) s = .next (s.advance.block x) := rfl

/-- Settles O51: `Fx0A` is one `block` after the advance of the fetch (`exec_ldVxK`). -/
theorem waitForKeyOnlyBlocks : Obligations.WaitForKeyOnlyBlocks := fun s x =>
  ⟨_, exec_ldVxK s x, State.toNat_nextPc s.pc, rfl, rfl, fun _ => rfl, rfl, fun _ => rfl⟩

theorem exec_ldDtVx (s : State) (x : Reg) : exec (.ldDtVx x) s = .next (s.advance.setDT (s.reg x)) := rfl

theorem exec_ldStVx (s : State) (x : Reg) : exec (.ldStVx x) s = .next (s.advance.setST (s.reg x)) := rfl

/-- Settles O52: each transfer is one write after the advance of the fetch. -/
theorem timerTransfersMoveOneByte : Obligations.TimerTransfersMoveOneByte := fun s x =>
  ⟨writesOneReg_of_exec rfl,
    ⟨_, exec_ldDtVx s x, State.toNat_nextPc s.pc, rfl, rfl, fun _ => rfl⟩,
    ⟨_, exec_ldStVx s x, State.toNat_nextPc s.pc, rfl, rfl, fun _ => rfl⟩⟩

end Sys2Proof.Machine
end

section
/-! The statements of spec/43_index_memory.md sections 2 and 3 and spec/20_memory.md section 6: the index arithmetic, the
two stores, the load, and what reads a store back. -/

namespace Sys2Proof.Machine

/-! ### The index arithmetic (R181, R182) -/

theorem exec_addI (s : State) (x : Reg) : exec (.addI x) s = .next (s.advance.setI (s.I + zextByte (s.reg x))) := rfl

theorem exec_ldF (s : State) (x : Reg) : exec (.ldF x) s = .next (s.advance.setI (s.glyphAddress x)) := rfl

theorem State.toNat_glyphAddress (s : State) (x : Reg) : (s.glyphAddress x).toNat = 5 * (s.reg x).toNat := by
  have hByte := byte_lt (s.reg x)
  rw [glyphAddress, BitVec.toNat_ofNat]
  exact Nat.mod_eq_of_lt (by show 5 * (s.reg x).toNat < 65536; omega)

theorem toNat_add_zextByte (i : Word) (b : Byte) : (i + zextByte b).toNat = (i.toNat + b.toNat) % 65536 := by
  rw [BitVec.toNat_add, toNat_zextByte]
  rfl

/-- Settles O40: each form is one `setI` after the advance of the fetch. -/
theorem indexArithmeticWritesOnlyI : Obligations.IndexArithmeticWritesOnlyI := fun s x =>
  ⟨⟨_, exec_addI s x, State.toNat_nextPc s.pc, toNat_add_zextByte _ _, rfl, sameMemory_advance_setI s _⟩,
    ⟨_, exec_ldF s x, State.toNat_nextPc s.pc, s.toNat_glyphAddress x, rfl, sameMemory_advance_setI s _⟩⟩

/-! ### A block store after the advance of the fetch (R184) -/

section Store

variable (s : State) (base : Nat) (bytes : List Byte)

theorem toNat_pc_advance_pokeAll : (s.advance.pokeAll base bytes).pc.toNat = (s.pc.toNat + 2) % 65536 := by
  rw [State.pokeAll_pc]
  exact State.toNat_nextPc s.pc

theorem sameMemoryOutside_advance_pokeAll : SameMemoryOutside base bytes.length s (s.advance.pokeAll base bytes) :=
  fun a ha => s.advance.byteAt_pokeAll_outside base a bytes ha

theorem advance_pokeAll_eq : s.advance.pokeAll base bytes =
    { s with pc := (s.advance.pokeAll base bytes).pc, mem := (s.advance.pokeAll base bytes).mem } := by
  rw [State.pokeAll_pc]
  exact s.advance.pokeAll_eq base bytes

end Store

/-! ### `Fx33` (R183) -/

theorem toNat_ofNat_byte {n : Nat} (h : n < 256) : (BitVec.ofNat hw.xlen n).toNat = n := by
  rw [BitVec.toNat_ofNat]
  exact Nat.mod_eq_of_lt h

/-- Digit k of V[x] is at I + k. -/
theorem toNat_byteAt_advance_pokeAll_bcdDigits {s : State} {x : Reg} {k n : Nat} (hk : k < 3) (hn : n < 256)
    (hDigit : (bcdDigits (s.reg x))[k] = BitVec.ofNat hw.xlen n) :
    ((s.advance.pokeAll s.dataBase (bcdDigits (s.reg x))).byteAt (s.dataBase + k)).toNat = n := by
  rw [State.byteAt_pokeAll_inside s.advance s.dataBase k (bcdDigits (s.reg x)) hk, hDigit, toNat_ofNat_byte hn]

/-- Settles O41: in range and above the font `Fx33` is one block store of the three digits, else it raises
(`storeAnswers_ldB`). -/
theorem bcdStoreWritesThreeDigits : Obligations.BcdStoreWritesThreeDigits := by
  intro s x hMemSize
  have hFontEnd : fontEnd = 0x050 := rfl
  have hByte := byte_lt (s.reg x)
  have hAnswers := storeAnswers_ldB x s
  refine ⟨fun hFont hEnd => ?_, hAnswers.raises_memWriteOor, fun hFont =>
    hAnswers.raises_fontWrite (by omega) (by omega)⟩
  refine ⟨_, hAnswers.completes hFont hEnd, toNat_pc_advance_pokeAll s _ _, ?_, ?_, ?_,
    sameMemoryOutside_advance_pokeAll s s.dataBase (bcdDigits (s.reg x)), advance_pokeAll_eq s _ _⟩
  · exact toNat_byteAt_advance_pokeAll_bcdDigits (k := 0) (by decide) (by omega) rfl
  · exact toNat_byteAt_advance_pokeAll_bcdDigits (by decide) (by omega) rfl
  · exact toNat_byteAt_advance_pokeAll_bcdDigits (by decide) (by omega) rfl

/-! ### `Fx55` (R184) -/

section StoreRegisters

variable {s t : State} {x : Reg}

/-- An `Fx55` that did not fault is the block store, in range. -/
theorem stRegs_completed (hExec : exec (.stRegs x) s = .next t) (ht : t.mode ≠ .faulted) :
    s.dataBase + (x.val + 1) ≤ s.cfg.memSize ∧ t = s.advance.pokeAll s.dataBase (s.regsUpTo x) := by
  rcases exec_inv hExec with ⟨_, hEnd, hStore⟩ | ⟨_, rfl⟩
  · exact ⟨hEnd, hStore⟩
  · exact absurd rfl ht

theorem byteAt_advance_pokeAll_regsUpTo {r : Reg} (hr : r.val ≤ x.val) :
    (s.advance.pokeAll s.dataBase (s.regsUpTo x)).byteAt (s.dataBase + r.val) = s.reg r := by
  have hLt : r.val < x.val + 1 := Nat.lt_succ_of_le hr
  rw [State.byteAt_pokeAll_inside _ _ _ _ (by simpa using hLt), s.getElem_regsUpTo x r.val hLt]

/-- Settles O42: in range and above the font `Fx55` is one block store of V0 to Vx, else it raises
(`storeAnswers_stRegs`). -/
theorem storeRegistersWritesTheBlock : Obligations.StoreRegistersWritesTheBlock := by
  intro s x hMemSize
  have hFontEnd : fontEnd = 0x050 := rfl
  have hx := reg_lt x
  have hAnswers := storeAnswers_stRegs x s
  refine ⟨fun hFont hEnd => ?_, hAnswers.raises_memWriteOor, fun hFont =>
    hAnswers.raises_fontWrite (by omega) (by omega)⟩
  refine ⟨_, hAnswers.completes hFont hEnd, toNat_pc_advance_pokeAll s _ _,
    fun r hr => byteAt_advance_pokeAll_regsUpTo hr, ?_, advance_pokeAll_eq s _ _⟩
  simpa using sameMemoryOutside_advance_pokeAll s s.dataBase (s.regsUpTo x)

end StoreRegisters

/-! ### `Fx65` (R185) -/

section LoadRegisters

variable {s : State} {x : Reg}

theorem exec_ldRegs_ok (hEnd : s.dataBase + (x.val + 1) ≤ s.cfg.memSize) :
    exec (.ldRegs x) s = .next (s.advance.setRegsFrom 0 (s.bytesFrom s.dataBase (x.val + 1))) := by
  rcases exec_ldRegs_cases x s with ⟨_, hExec⟩ | ⟨hPast, _⟩
  · exact hExec
  · omega

theorem raises_ldRegs_memReadOor (hEnd : s.cfg.memSize < s.dataBase + (x.val + 1)) :
    Raises (.ldRegs x) s .memReadOor := by
  rcases exec_ldRegs_cases x s with ⟨hIn, _⟩ | ⟨_, _, hExec⟩
  · omega
  · exact raises_of_exec hExec

theorem reg_advance_setRegsFrom_bytesFrom {r : Reg} (hr : r.val ≤ x.val) :
    (s.advance.setRegsFrom 0 (s.bytesFrom s.dataBase (x.val + 1))).reg r = s.byteAt (s.dataBase + r.val) := by
  have hx := reg_lt x
  have hLt : r.val < x.val + 1 := Nat.lt_succ_of_le hr
  rw [State.reg_setRegsFrom _ _ _ _ (by rw [State.length_bytesFrom]; omega), dif_pos ⟨Nat.zero_le _, by simpa using hLt⟩]
  exact s.getElem_bytesFrom s.dataBase (x.val + 1) r.val hLt

theorem onlyRegsAndPc_advance_setRegsFrom (bytes : List Byte) : OnlyRegsAndPc s (s.advance.setRegsFrom 0 bytes) := by
  refine ⟨?_, State.byteAt_congr (State.setRegsFrom_mem _ _ _) (State.setRegsFrom_cfg _ _ _)⟩
  rw [State.setRegsFrom_pc]
  exact s.advance.setRegsFrom_eq 0 bytes

/-- Settles O43: in range `Fx65` is one block load into V0 to Vx (`exec_ldRegs_ok`), else it raises. -/
theorem loadRegistersReadsTheBlock : Obligations.LoadRegistersReadsTheBlock := by
  intro s x
  refine ⟨fun hEnd => ?_, fun hEnd => raises_ldRegs_memReadOor (by omega)⟩
  refine ⟨_, exec_ldRegs_ok (by omega), ?_, fun r hr => reg_advance_setRegsFrom_bytesFrom hr,
    fun r hr => reg_setRegsFrom_of_lt (s.length_bytesFrom _ _) hr, onlyRegsAndPc_advance_setRegsFrom _⟩
  rw [State.setRegsFrom_pc]
  exact State.toNat_nextPc s.pc

end LoadRegisters

/-! ### What reads a store back -/

/-- Settles O44: the load reads at I + r what the store wrote there, V[r]. -/
theorem storeThenLoadRestoresRegisters : Obligations.StoreThenLoadRestoresRegisters := by
  intro s t u x _ hExec ht hCfg hI hBytes
  obtain ⟨hEnd, rfl⟩ := stRegs_completed hExec ht
  rw [State.pokeAll_cfg] at hCfg
  rw [State.pokeAll_I] at hI hBytes
  have hBase : u.dataBase = s.dataBase := congrArg BitVec.toNat hI
  refine ⟨_, exec_ldRegs_ok (by rw [hBase, hCfg]; exact hEnd), State.setRegsFrom_mode _ _ _, fun r hr => ?_⟩
  calc (u.advance.setRegsFrom 0 (u.bytesFrom u.dataBase (x.val + 1))).reg r
      = u.byteAt (u.dataBase + r.val) := reg_advance_setRegsFrom_bytesFrom hr
    _ = u.byteAt (s.dataBase + r.val) := by rw [hBase]
    _ = (s.advance.pokeAll s.dataBase (s.regsUpTo x)).byteAt (s.dataBase + r.val) := hBytes r.val hr
    _ = s.reg r := byteAt_advance_pokeAll_regsUpTo hr

/-- Settles O45: after the store pc is A + 2, where V0 and V1 now stand. -/
theorem storeIsSeenByTheNextFetch : Obligations.StoreIsSeenByTheNextFetch := by
  intro s t x _ hx hI hExec ht
  obtain ⟨hEnd, rfl⟩ := stRegs_completed hExec ht
  have hPc : (s.advance.pokeAll s.dataBase (s.regsUpTo x)).pc.toNat = s.dataBase := by
    rw [State.pokeAll_pc, State.advance_pc, ← hI]
    rfl
  have hByte0 := byteAt_advance_pokeAll_regsUpTo (s := s) (x := x) (r := 0) (Nat.zero_le _)
  have hByte1 := byteAt_advance_pokeAll_regsUpTo (s := s) (x := x) (r := 1) hx
  refine ⟨_, State.fetch_ok _ ?_, ?_⟩
  · rw [hPc, State.pokeAll_cfg, State.advance_cfg]
    omega
  · rw [hPc, toNat_wordOfBytes]
    exact congrArg₂ (fun hi lo : Byte => 256 * hi.toNat + lo.toNat) hByte0 hByte1

end Sys2Proof.Machine
end

section
/-! The statements of spec/44_display.md sections 2 and 3: the draw. -/

namespace Sys2Proof.Machine

/-! ### The covered cells -/

theorem rowsCover_bytesFrom_iff (s : State) (vx vy n px py : Nat) :
    FrameBuffer.RowsCover vx vy (s.bytesFrom s.dataBase n) px py ↔ SpriteCovers s vx vy n px py := by
  constructor
  · rintro ⟨r, hr, c, _, hc, hBit, hx, hy⟩
    have hr' : r < n := by simpa using hr
    rw [s.getElem_bytesFrom s.dataBase n r hr'] at hBit
    exact ⟨r, c, hr', by omega, hBit, hx, hy⟩
  · rintro ⟨r, c, hr, hc, hBit, hx, hy⟩
    refine ⟨r, by simpa using hr, c, Nat.zero_le c, by omega, ?_, hx, hy⟩
    rw [s.getElem_bytesFrom s.dataBase n r hr]
    exact hBit

/-! ### `Dxyn` (R194) -/

/-- The framebuffer and the collision of the sprite of n rows at I drawn at (V[x], V[y]). -/
def State.drawn (s : State) (x y : Reg) (n : Nat) : FrameBuffer × Bool :=
  s.fb.draw (s.reg x).toNat (s.reg y).toNat (s.bytesFrom s.dataBase n)

/-- The state `Dxyn` leaves when it completes. -/
def State.afterDraw (s : State) (x y : Reg) (n : Nat) : State :=
  (s.advance.setFb (s.drawn x y n).1).setReg VF (if (s.drawn x y n).2 then 1 else 0)

section Draw

variable {s t : State} {x y : Reg} {n : Nat}

theorem exec_drw_ok (hRange : n = 0 ∨ s.dataBase + n ≤ s.cfg.memSize) :
    exec (.drw x y n) s = .next (s.afterDraw x y n) := by
  rcases exec_drw_cases x y n s with ⟨_, hExec⟩ | ⟨hn, hPast, _⟩
  · exact hExec
  · omega

theorem raises_drw_memReadOor (hn : n ≠ 0) (hPast : s.cfg.memSize < s.dataBase + n) :
    Raises (.drw x y n) s .memReadOor := by
  rcases exec_drw_cases x y n s with ⟨hRange, _⟩ | ⟨_, _, _, hExec⟩
  · omega
  · exact raises_of_exec hExec

/-- A `Dxyn` that did not fault is the draw, in range. -/
theorem drw_completed (hExec : exec (.drw x y n) s = .next t) (ht : t.mode ≠ .faulted) :
    (n = 0 ∨ s.dataBase + n ≤ s.cfg.memSize) ∧ t = s.afterDraw x y n := by
  rcases exec_inv hExec with hCompleted | ⟨_, rfl⟩
  · exact hCompleted
  · exact absurd rfl ht

theorem length_sprite_le (s : State) (hn : n < 16) : (s.bytesFrom s.dataBase n).length ≤ hw.fbH := by
  rw [State.length_bytesFrom, fbH_eq]
  omega

theorem pixel_drawn (hn : n < 16) (px py : Nat) :
    (SpriteCovers s (s.reg x).toNat (s.reg y).toNat n px py → (s.drawn x y n).1.pixel px py = !s.fb.pixel px py) ∧
      (¬ SpriteCovers s (s.reg x).toNat (s.reg y).toNat n px py → (s.drawn x y n).1.pixel px py = s.fb.pixel px py) := by
  rw [← rowsCover_bytesFrom_iff]
  exact (FrameBuffer.draw_spec s.fb _ _ _ (length_sprite_le s hn)).1 px py

theorem hit_drawn_iff (hn : n < 16) : (s.drawn x y n).2 = true ↔
    ∃ px py, SpriteCovers s (s.reg x).toNat (s.reg y).toNat n px py ∧ s.fb.pixel px py = true := by
  simp only [← rowsCover_bytesFrom_iff]
  exact (FrameBuffer.draw_spec s.fb _ _ _ (length_sprite_le s hn)).2

theorem toNat_reg_VF_afterDraw : ((s.afterDraw x y n).reg VF).toNat = if (s.drawn x y n).2 then 1 else 0 := by
  rw [State.afterDraw, State.reg_setReg_self]
  split <;> rfl

/-- Settles O48: in range `Dxyn` is the draw (`exec_drw_ok`), whose pixels and collision `pixel_drawn` and `hit_drawn_iff`
give by the cells the sprite covers; else it raises. -/
theorem drawXorsTheWrappedSprite : Obligations.DrawXorsTheWrappedSprite := by
  intro s x y n hn vx vy
  refine ⟨fun hRange => ?_, fun hPos hPast => raises_drw_memReadOor (by omega) (by omega)⟩
  refine ⟨s.afterDraw x y n, exec_drw_ok (by omega), State.toNat_nextPc s.pc, pixel_drawn hn, fun hHit => ?_,
    fun hNoHit => ?_, fun r hr => State.reg_setReg_ne _ _ (List.ne_of_not_mem_cons hr), rfl, fun _ => rfl⟩
  · rw [toNat_reg_VF_afterDraw, if_pos ((hit_drawn_iff hn).2 hHit)]
  · rw [toNat_reg_VF_afterDraw, if_neg (mt (hit_drawn_iff hn).1 hNoHit)]

end Draw

/-! ### Drawing twice (section 3) -/

section DrawTwice

variable (fb : FrameBuffer) (vx vy : Nat) {rows : List Byte} (hRows : rows.length ≤ hw.fbH)

include hRows

theorem FrameBuffer.draw_draw : ((fb.draw vx vy rows).1.draw vx vy rows).1 = fb := by
  obtain ⟨hFirst, _⟩ := fb.draw_spec vx vy rows hRows
  obtain ⟨hSecond, _⟩ := (fb.draw vx vy rows).1.draw_spec vx vy rows hRows
  apply ext_pixel
  intro px py
  by_cases hCovers : RowsCover vx vy rows px py
  · rw [(hSecond px py).1 hCovers, (hFirst px py).1 hCovers, Bool.not_not]
  · rw [(hSecond px py).2 hCovers, (hFirst px py).2 hCovers]

/-- The second draw meets the cells the first set. -/
theorem FrameBuffer.draw_draw_hit_iff : ((fb.draw vx vy rows).1.draw vx vy rows).2 = true ↔
    ∃ px py, RowsCover vx vy rows px py ∧ fb.pixel px py = false := by
  obtain ⟨hFirst, _⟩ := fb.draw_spec vx vy rows hRows
  obtain ⟨_, hHit⟩ := (fb.draw vx vy rows).1.draw_spec vx vy rows hRows
  rw [hHit]
  refine exists_congr fun px => exists_congr fun py => and_congr_right fun hCovers => ?_
  rw [(hFirst px py).1 hCovers, Bool.not_eq_true']

end DrawTwice

theorem State.bytesFrom_congr_of_lt {s t : State} {base n : Nat}
    (h : ∀ r, r < n → t.byteAt (base + r) = s.byteAt (base + r)) : t.bytesFrom base n = s.bytesFrom base n := by
  refine List.ext_getElem (by simp) fun r ht hs => ?_
  have hr : r < n := by simpa using ht
  rw [t.getElem_bytesFrom base n r hr, s.getElem_bytesFrom base n r hr, h r hr]

/-- Settles O49: the second draw is of the same rows at the same place over the first one's framebuffer
(`FrameBuffer.draw_draw`, `FrameBuffer.draw_draw_hit_iff`). -/
theorem drawingTwiceRestoresTheFramebuffer : Obligations.DrawingTwiceRestoresTheFramebuffer := by
  intro s t u x y n hn _ hExec ht hFb hI hCfg hx hy hBytes
  obtain ⟨hRange, rfl⟩ := drw_completed hExec ht
  have hRows := length_sprite_le s hn
  have hBase : u.dataBase = s.dataBase := congrArg BitVec.toNat hI
  have hSprite : u.bytesFrom s.dataBase n = s.bytesFrom s.dataBase n := State.bytesFrom_congr_of_lt hBytes
  have hDrawn : u.drawn x y n =
      (s.fb.draw (s.reg x).toNat (s.reg y).toNat (s.bytesFrom s.dataBase n)).1.draw (s.reg x).toNat (s.reg y).toNat
        (s.bytesFrom s.dataBase n) := by
    rw [State.drawn, hFb, hx, hy, hBase, hSprite]
    rfl
  refine ⟨u.afterDraw x y n, exec_drw_ok (by rwa [hBase, hCfg]), ?_, ?_⟩
  · exact (congrArg Prod.fst hDrawn).trans (s.fb.draw_draw _ _ hRows)
  · rw [toNat_reg_VF_afterDraw, hDrawn]
    simp only [← rowsCover_bytesFrom_iff, ← s.fb.draw_draw_hit_iff _ _ hRows]
    simp

end Sys2Proof.Machine
end
